-- ==== Sys2Proof/Word.lean ====
section
/-! DEFINITION. The widths of the codec's ports (spec/10_state.md R19, R20; spec/20_memory.md R31: there are no others). -/

namespace Sys2Proof

/-- A 2-bit `op` or `status` pattern. -/
abbrev Pair := BitVec 2

/-- An 8-bit byte in wire order. -/
abbrev Byte := BitVec 8

/-- A 16-bit register value. -/
abbrev Half := BitVec 16

/-- A 32-bit binary32 pattern: one port value, never split into bytes (R31). -/
abbrev Word := BitVec 32

end Sys2Proof
end

