-- ==== Sys2Proof/Syntax.lean ====
section
/-! DEFINITION. The syntax: the four operations of spec/opcode_table.json, and the lines of a host program
(spec/30_encoding.md R49, R50). -/

namespace Sys2Proof

/-- The operations (R38, R40). An operation has no encoded field but `op` and no immediate (R38, R41): its operands are the
values on the input ports, so no constructor carries one. -/
inductive Instr where
  /-- DEC: two register bytes to a Celsius value (R51). -/
  | dec
  /-- ENC: a Celsius value to a register value (R56). -/
  | enc
  /-- JOIN: two wire-order bytes to a 16-bit value (R66). -/
  | join
  /-- SPLIT: a 16-bit value to two wire-order bytes (R67). -/
  | split
deriving DecidableEq, Repr

/-- The name of a line. A program names its own lines by numbers; `t0 n` and `t1 n` are the inner lines that the
pseudo-operation on line `n` expands to (R50; DESIGN CHOICE, notes/assumptions/7.md). -/
inductive Label where
  | line (n : Nat)
  | t0 (n : Nat)
  | t1 (n : Nat)
deriving DecidableEq, Repr

/-- A decimal literal of R49, read as ± digits / 10 ^ places. -/
structure Decimal where
  neg : Bool
  digits : Nat
  places : Nat
deriving DecidableEq, Repr

/-- A byte operand: a literal `0xHH`, or an 8-bit output port of an earlier line (R49). -/
inductive ByteArg where
  | lit (b : Byte)
  | bout0 (l : Label)
  | bout1 (l : Label)
deriving DecidableEq, Repr

/-- A register-value operand: a literal `0xHHHH`, or the `rout` of an earlier line (R49). -/
inductive RegArg where
  | lit (r : Half)
  | rout (l : Label)
deriving DecidableEq, Repr

/-- A binary32 operand: a pattern `0xHHHHHHHH`, a decimal literal, or the `fout` of an earlier line (R49). -/
inductive FloatArg where
  | bits (b : Word)
  | decimal (d : Decimal)
  | fout (l : Label)
deriving DecidableEq, Repr

/-- The five line forms of R49. -/
inductive LineForm where
  | dec (b0 b1 : ByteArg)
  | decAbsent
  | enc (f : FloatArg)
  | join (b0 b1 : ByteArg)
  | split (r : RegArg)
deriving DecidableEq, Repr

/-- One line of a host program, `label: MNEMONIC operands` (R49). -/
structure Line where
  label : Label
  form : LineForm
deriving DecidableEq, Repr

/-- A line as it may be written: one of R49, or a pseudo-operation of R50 on line `n`. -/
inductive SourceLine where
  | plain (n : Nat) (form : LineForm)
  | thresh (n : Nat) (f : FloatArg)
  | rtrip (n : Nat) (f : FloatArg)
deriving DecidableEq, Repr

end Sys2Proof
end

