-- ==== Sys2Proof/WellFormed.lean ====
section
/-! DEFINITION. Which terms of the syntax are well formed. -/

namespace Sys2Proof

/-- Every operation is well formed: it has no field that could be out of range (spec/30_encoding.md R38, R40). -/
def Instr.wellFormed : Instr → Bool
  | .dec => true
  | .enc => true
  | .join => true
  | .split => true

/-- The line a byte operand refers to, if any. -/
def ByteArg.refs : ByteArg → List Label
  | .lit _ => []
  | .bout0 l => [l]
  | .bout1 l => [l]

/-- The line a register-value operand refers to, if any. -/
def RegArg.refs : RegArg → List Label
  | .lit _ => []
  | .rout l => [l]

/-- The line a binary32 operand refers to, if any. -/
def FloatArg.refs : FloatArg → List Label
  | .bits _ => []
  | .decimal _ => []
  | .fout l => [l]

/-- The lines a line form refers to. -/
def LineForm.refs : LineForm → List Label
  | .dec b0 b1 => b0.refs ++ b1.refs
  | .decAbsent => []
  | .enc f => f.refs
  | .join b0 b1 => b0.refs ++ b1.refs
  | .split r => r.refs

/-- The lines of a program are well formed after lines labelled `earlier`: each label is new, and each reference is to an
EARLIER line (R49). -/
def linesWellFormed : List Label → List Line → Bool
  | _, [] => true
  | earlier, l :: rest =>
    !earlier.contains l.label && l.form.refs.all earlier.contains && linesWellFormed (l.label :: earlier) rest

/-- A host program: lines whose labels are distinct and whose references are to earlier lines (R49, R91). -/
def Program.wellFormed (p : List Line) : Bool := linesWellFormed [] p

end Sys2Proof
end

