-- ==== Sys2Proof/Decode.lean ====
section
/-! DEFINITION. The operation select: the decoder and the encoder of spec/30_encoding.md R38 to R40.

Decoding is total: all four values of `op` select an operation, and the spec has no encoding to reject (R40). -/

namespace Sys2Proof

/-- R38's table, read from the value on the `op` port; R40's `decodeOp`. -/
def decodeOp (op : Pair) : Instr :=
  if op = 0b00#2 then .dec
  else if op = 0b01#2 then .enc
  else if op = 0b10#2 then .join
  else .split

/-- R38's table, read from the operation. -/
def encodeOp : Instr → Pair
  | .dec => 0b00#2
  | .enc => 0b01#2
  | .join => 0b10#2
  | .split => 0b11#2

/-- The `op` value of a table word of `nbits` bits: its bits 1..0, a bit at or above `nbits` being 0. The port has two
wires and the table's mask is 0x3, so no other bit is looked at (DESIGN CHOICE, notes/assumptions/5.md). -/
def opOfTableWord (nbits w : Nat) : Pair := BitVec.ofNat 2 (w % 2 ^ nbits)

/-- The operation the decoder reads from a word numbered as spec/opcode_table.json numbers it. -/
def decodeTableWord (nbits w : Nat) : Option Instr := some (decodeOp (opOfTableWord nbits w))

end Sys2Proof
end

