-- ==== Sys2Proof/Machine/Binary32.lean ====
section
/-! DEFINITION. The Celsius value format: IEEE 754 binary32 patterns as spec/30_encoding.md R45 to R47 lays them out, the
primitives of spec/00_scope.md R10 and R11, and the rounding of a decimal literal (R49). -/

namespace Sys2Proof.Machine

/-- s = b[31] (R45). -/
def f32Sign (b : Word) : Bool := b.getLsbD 31

/-- E = b[30:23] (R45). -/
def f32Exp (b : Word) : Nat := (b.extractLsb' 23 8).toNat

/-- F = b[22:0] (R45). -/
def f32Frac (b : Word) : Nat := (b.extractLsb' 0 23).toNat

/-- a = b[30:0], the magnitude bits (R46, R56). -/
def f32Mag (b : Word) : Nat := (b.extractLsb' 0 31).toNat

/-- `isnan` (R11, R45). -/
def f32IsNaN (b : Word) : Bool := f32Exp b == 255 && f32Frac b != 0

/-- `isinf` (R11, R45). -/
def f32IsInf (b : Word) : Bool := f32Exp b == 255 && f32Frac b == 0

/-- M, the integer significand: F when E = 0 (zero or subnormal), 2^23 + F otherwise (R45, R56). -/
def f32Signif (b : Word) : Nat := if f32Exp b = 0 then f32Frac b else 2 ^ 23 + f32Frac b

/-- P, the power of two M is scaled by: -149 when E = 0, E - 150 otherwise (R45, R56). -/
def f32Scale (b : Word) : Int := if f32Exp b = 0 then -149 else (f32Exp b : Int) - 150

/-- `f32val`, the value (-1)^s × M × 2^P; defined only when b is finite (R11, R45). -/
def f32val (b : Word) : Option ℚ :=
  if f32Exp b = 255 then none
  else some ((if f32Sign b then -1 else 1) * f32Signif b * (2 : ℚ) ^ f32Scale b)

/-- `trunc`, the integer nearest q in the direction of zero (R10). -/
def truncToward0 (q : ℚ) : Int := if 0 ≤ q then ⌊q⌋ else ⌈q⌉

/-- `f32_of_k`, the binary32 pattern of k × 0.0625 for k in [-2048, 2047] (R47). -/
def f32OfK (k : Int) : Word :=
  if k = 0 then 0x00000000#32
  else
    let sgn : BitVec 1 := if k < 0 then 1#1 else 0#1
    let m := k.natAbs
    let e := m.log2
    (sgn ++ BitVec.ofNat 8 (123 + e)) ++ BitVec.ofNat 23 ((m - 2 ^ e) <<< (23 - e))

/-- floor(log2(n / d)) for positive n and d. -/
def floorLog2Ratio (n d : Nat) : Int :=
  let g : Int := (n.log2 : Int) - d.log2
  let atLeast : Bool := if 0 ≤ g then d <<< g.toNat ≤ n else d ≤ n <<< (-g).toNat
  if atLeast then g else g - 1

/-- n / den rounded to an integer, ties to even. -/
def roundHalfEven (n den : Nat) : Nat :=
  let q := n / den
  let r := n % den
  if den < 2 * r ∨ (2 * r = den ∧ q % 2 = 1) then q + 1 else q

/-- Bits 30..0 of the binary32 nearest to n / d (d positive), ties to even: n / d in units of 2^P is rounded, where P is the
scale of n / d's own binade but not less than -149. A carry out of the significand runs on into the exponent field, and what
rounds past the greatest finite pattern is infinity (PRESUMED, notes/assumptions/8.md). -/
def f32NearestMag (n d : Nat) : Nat :=
  if n = 0 then 0
  else
    let P : Int := max (-149) (floorLog2Ratio n d - 23)
    let m := if 0 ≤ P then roundHalfEven n (d <<< P.toNat) else roundHalfEven (n <<< (-P).toNat) d
    let mag := if m < 2 ^ 23 then m else (P + 150).toNat * 2 ^ 23 + (m - 2 ^ 23)
    min mag 0x7F800000

/-- The binary32 nearest to ± n / d, ties to even (R49). A literal written with a minus sign keeps it even when the value is
zero (PRESUMED, notes/assumptions/8.md). -/
def f32Nearest (neg : Bool) (n d : Nat) : Word :=
  BitVec.ofNat 32 ((if neg then 2 ^ 31 else 0) + f32NearestMag n d)

end Sys2Proof.Machine
end

