-- ==== Sys2Proof/Machine/Params.lean ====
section
/-! DEFINITION. The fixed parameters of spec/00_scope.md R7 and the constant patterns of spec/10_state.md R26. -/

namespace Sys2Proof.Machine

/-- REG_BITS, the width of a register value (R7). -/
def regBits : Nat := 16

/-- INT_BITS, the width of the signed integer field, bits 15..4 (R7). -/
def intBits : Nat := 12

/-- FRAC_BITS, the width of the low field and the shift distance (R7). -/
def fracBits : Nat := 4

/-- STATUS_BITS, the width of the status output (R7). -/
def statusBits : Nat := 2

/-- RES, the resolution in degrees per unit of the integer field, 0.0625 (R7). -/
def res : ℚ := 1 / 16

/-- TMIN, the least temperature ENC accepts (R7). -/
def tmin : ℚ := -40

/-- TMAX, the greatest temperature ENC accepts (R7). -/
def tmax : ℚ := 128

/-- The binary32 pattern of TMIN (R7). -/
def tminBits : Word := 0xC2200000#32

/-- The binary32 pattern of TMAX (R7). -/
def tmaxBits : Word := 0x43000000#32

/-- U16_SENTINEL, what `rout` carries when ENC reports OutOfRange (R7, R75). -/
def u16Sentinel : Half := 0x00FF#16

/-- SIGN16, bit 15 of a register value (R26). -/
def sign16 : Half := 0x8000#16

/-- EXT16, the four bits DEC's sign extension sets (R26). -/
def ext16 : Half := 0xF000#16

/-- LOW4, the low field of a register value (R26). -/
def low4 : Half := 0x000F#16

/-- POS_LIMIT, bits 30..0 of the pattern of 128.0 (R26). -/
def posLimit : Nat := 0x43000000

/-- NEG_LIMIT, bits 30..0 of the pattern of -40.0 (R26). -/
def negLimit : Nat := 0x42200000

end Sys2Proof.Machine
end

