-- ==== Sys2Proof/Machine/Operands.lean ====
section
/-! DEFINITION. What the operations compute from their operands: byte order (spec/20_memory.md R29), the register-value format
(spec/30_encoding.md R42 to R44), and the nets of DEC and ENC (spec/40_codec.md R51, R56; R25 lists them). -/

namespace Sys2Proof.Machine

/-- `{b0, b1}`: the first byte on the wire is bits 15..8 (R29, R44). -/
def joinBytes (b0 b1 : Byte) : Half := b0 ++ b1

/-- Bits 15..8, the first byte on the wire (R29, R44). -/
def highByte (r : Half) : Byte := r.extractLsb' 8 8

/-- Bits 7..0, the second byte on the wire (R29, R44). -/
def lowByte (r : Half) : Byte := r.extractLsb' 0 8

/-- `s16`, the signed integer of a 16-bit pattern (R10). -/
def s16 (p : Half) : Int := p.toInt

/-- `u16`, an integer reduced mod 2^16 (R10). -/
def u16 (n : Int) : Half := BitVec.ofInt 16 n

/-- The integer field of a register value, bits 15..4. -/
def intField (r : Half) : BitVec 12 := r.extractLsb' 4 12

/-- k = s16(sext_16(r[15:4])), the integer a register value holds (R42). -/
def regK (r : Half) : Int := s16 ((intField r).signExtend 16)

/-- The temperature a register value denotes, k × 0.0625 (R42). -/
def regValue (r : Half) : ℚ := regK r * res

/-- A well-formed encoding has r[3:0] = 0 (R42). -/
def wellFormedReg (r : Half) : Bool := r &&& low4 == 0#16

/-- DEC's `sh16`: the assembled value shifted right by 4, with the top 4 bits set when byte[0]'s top bit is (R51). -/
def decSh16 (bin0 bin1 : Byte) : Half :=
  let sh16 : Half := (intField (joinBytes bin0 bin1)).setWidth 16
  if bin0.getLsbD 7 then sh16 ||| ext16 else sh16

/-- DEC's `k` (R51). -/
def decK (bin0 bin1 : Byte) : Int := s16 (decSh16 bin0 bin1)

/-- ENC's range check, on the bits (R56, R57). -/
def encInRange (b : Word) : Bool :=
  (!f32Sign b && decide (f32Mag b ≤ posLimit)) || (f32Sign b && decide (f32Mag b ≤ negLimit))

/-- ENC's `neg`, x < 0: negative zero is not negative (R56, R61). -/
def encNeg (b : Word) : Bool := f32Sign b && f32Mag b != 0

/-- ENC's `mag`, trunc(16 × |x|) (R56). -/
def encMag (b : Word) : Nat :=
  let sh : Int := f32Scale b + 4
  if 0 ≤ sh then f32Signif b <<< sh.toNat else f32Signif b >>> (-sh).toNat

/-- ENC's `k`, trunc(x / 0.0625) (R56, R58). -/
def encK (b : Word) : Int := if encNeg b then -(encMag b : Int) else encMag b

/-- ENC's `t`, k left-justified into bits 15..4 and wrapped to 16 bits (R56, R59). -/
def encT (b : Word) : Half := u16 (encK b * 2 ^ fracBits)

/-- ENC's `r`: bit 15 of t forced from the sign of x, unconditionally (R56, R60). -/
def encR (b : Word) : Half := if encNeg b then encT b ||| sign16 else encT b &&& ~~~sign16

end Sys2Proof.Machine
end

