-- ==== Sys2Proof/Machine/Flags.lean ====
section
/-! DEFINITION. The status output, the block's one flag-like value: its codes (spec/60_exceptions.md R72) and which operation
reports which (R73). It is computed afresh by every operation and held by none (spec/10_state.md R16). -/

namespace Sys2Proof.Machine

/-- OK (R72). -/
def statusOk : Pair := 0b00#2

/-- InvalidInput: DEC with `present` = 0 (R72). -/
def statusInvalidInput : Pair := 0b01#2

/-- OutOfRange: ENC with `fin` not in range (R72). -/
def statusOutOfRange : Pair := 0b10#2

/-- BusError: reserved, and never driven by the block (R72, R74). -/
def statusBusError : Pair := 0b11#2

/-- DEC's status (R73). -/
def decStatus (present : Bool) : Pair := if present then statusOk else statusInvalidInput

/-- ENC's status (R73). -/
def encStatus (inRange : Bool) : Pair := if inRange then statusOk else statusOutOfRange

end Sys2Proof.Machine
end

