-- ==== Sys2Proof/Machine/State.lean ====
section
/-! DEFINITION. What there is to hold: the values on the input ports (spec/10_state.md R19) and the host's observation
(spec/70_reset_and_hazards.md R91). The output ports are not held: they are `Codec` of the inputs (R21; Machine/Block.lean). -/

namespace Sys2Proof.Machine

/-- The input ports (R19), driven by the host. -/
structure In where
  op : Pair
  present : Bool
  bin0 : Byte
  bin1 : Byte
  fin : Word
  rin : Half
deriving DecidableEq, Repr

/-- The output ports (R20), driven by the operation: one record of the values on them. -/
structure Out where
  status : Pair
  fout : Word
  rout : Half
  bout0 : Byte
  bout1 : Byte
deriving DecidableEq, Repr

/-- The block has no register, flag, pc, mode, memory or hidden state (R14 to R18, R28), and its outputs are `Codec` of its
inputs at every moment (R27, R85), so no output is a field: `State.out` computes them, and no state is unsettled (R89). What
changes is the host's: the inputs it presents, and its observation, the outputs of every operation applied so far, in order
(R91; DESIGN CHOICE, notes/assumptions/1.md). -/
structure State where
  inp : In
  observed : List Out
deriving DecidableEq, Repr

/-- No operation stops: every input combination has a defined output (R13), an error is not a trap (R78), and no behaviour is
'stuck' (93_implementation_defined.md section 1). So there is no fault, and no constructor that could raise one. -/
inductive Fault where
deriving DecidableEq, Repr

/-- No operation is refused either (R13, R40). -/
inductive Refusal where
  /-- Raised only by an arm of `exec` whose instruction has no meaning yet; no arm has it now. Safe: nothing is claimed of
  such an instruction. -/
  | notModelled (mnemonic : String)
deriving DecidableEq, Repr

/-- Right after reset the host drives zeros (DESIGN CHOICE, notes/assumptions/2.md) and has observed nothing. The outputs have no
reset value: they are `Codec` of the inputs then present, as always (R27, R85, R86). -/
def State.reset : State where
  inp := { op := 0b00#2, present := false, bin0 := 0x00#8, bin1 := 0x00#8, fin := 0x00000000#32, rin := 0x0000#16 }
  observed := []

end Sys2Proof.Machine
end

