-- ==== Sys2Proof/Machine/Ops.lean ====
section
/-! DEFINITION. The named operations over the ports, through which every meaning acts. There is no memory, register file,
exception entry or return to name: the block has none (spec/10_state.md R14, spec/20_memory.md R28, spec/60_exceptions.md R78,
R79). -/

namespace Sys2Proof.Machine

/-- The value that selects the operation, from the `op` port (R15, R38). Nothing is fetched: the port is read. -/
def State.selectedOp (s : State) : Pair := s.inp.op

/-- The host presents inputs. The outputs follow at once (`State.out`), and nothing else changes: the block has no state
(R21, R24). -/
def State.presenting (s : State) (i : In) : State := { s with inp := i }

/-- An operation is applied once: the values `o` it drives on every output port, in one indivisible evaluation, are the next
record of the host's observation. It changes nothing else (R33, R91). -/
def State.observing (s : State) (o : Out) : State := { s with observed := s.observed ++ [o] }

/-- Every output port at 0: what an operation leaves on the ports it does not drive (R22). -/
def Out.undriven : Out := { status := 0#2, fout := 0#32, rout := 0#16, bout0 := 0#8, bout1 := 0#8 }

/-- DEC reports InvalidInput: the status and the sentinel, the other ports undriven (R73, R75). It is the block's whole
reaction, since an error is not a trap (R78). -/
def Out.invalidInput (floatSentinel : Word) : Out :=
  { Out.undriven with status := decStatus false, fout := floatSentinel }

/-- ENC reports OutOfRange: the status and the sentinel, the other ports undriven (R73, R75). -/
def Out.outOfRange : Out := { Out.undriven with status := encStatus false, rout := u16Sentinel }

end Sys2Proof.Machine
end

