-- ==== Sys2Proof/Machine/ByteOrder.lean ====
section
/-! DEFINITION. The byte-order conventions: JOIN (spec/41_byte_order.md R66) and SPLIT (R67). Neither reads `present`, reports
an error, or gives the bits it moves a meaning (R23, R70, R73). -/

namespace Sys2Proof.Machine

/-- JOIN (R66). -/
def joinOut (i : In) : Out := { Out.undriven with status := statusOk, rout := joinBytes i.bin0 i.bin1 }

/-- SPLIT (R67). -/
def splitOut (i : In) : Out :=
  { Out.undriven with status := statusOk, bout0 := highByte i.rin, bout1 := lowByte i.rin }

/-- The meaning of JOIN. -/
def execJoin (s : State) : Host.Outcome State Fault Refusal := .next (s.observing (joinOut s.inp))

/-- The meaning of SPLIT. -/
def execSplit (s : State) : Host.Outcome State Fault Refusal := .next (s.observing (splitOut s.inp))

end Sys2Proof.Machine
end

