-- ==== Sys2Proof/Config.lean ====
section
/-! DEFINITION. What the spec leaves to the implementation: the OPEN parameter of spec/00_scope.md R7. -/

namespace Sys2Proof

/-- FLOAT_SENTINEL (R7, R75; 92_eei_decisions.md D6): what `fout` carries when DEC reports InvalidInput. The spec marks it
OPEN, so it has no body here and no proof can learn its value (notes/assumptions/3.md). -/
opaque Config.floatSentinel : Word

/-- The spec's DEFAULT for FLOAT_SENTINEL, 255.0 (R7, R75). The machine does not use it: only R76's sentence about the
default does. -/
def Config.floatSentinelDefault : Word := 0x437F0000#32

end Sys2Proof
end

