-- ==== Sys2Proof/Machine/Codec.lean ====
section
/-! DEFINITION. The fixed-point codec: DEC (spec/40_codec.md R51) and ENC (R56). Each operation is a function from the input
ports to the output ports (spec/00_scope.md R13); DEC's takes the OPEN parameter FLOAT_SENTINEL as an argument (R7). -/

namespace Sys2Proof.Machine

/-- DEC (R51). `present` is tested before the bytes are used (R77). -/
def decOut (floatSentinel : Word) (i : In) : Out :=
  if i.present then { Out.undriven with status := decStatus true, fout := f32OfK (decK i.bin0 i.bin1) }
  else Out.invalidInput floatSentinel

/-- ENC (R56). The range is tested before any arithmetic (R57, R77). -/
def encOut (i : In) : Out :=
  if encInRange i.fin then { Out.undriven with status := encStatus true, rout := encR i.fin }
  else Out.outOfRange

/-- The meaning of DEC. -/
def execDec (s : State) : Host.Outcome State Fault Refusal := .next (s.observing (decOut Config.floatSentinel s.inp))

/-- The meaning of ENC. -/
def execEnc (s : State) : Host.Outcome State Fault Refusal := .next (s.observing (encOut s.inp))

end Sys2Proof.Machine
end

