-- ==== Sys2Proof/Machine/Dispatch.lean ====
section
/-! DEFINITION. The meaning of each operation, one arm a constructor. -/

namespace Sys2Proof.Machine

/-- The operation `i` applied once to the values on the input ports: the host observes what it drives. -/
def exec (i : Instr) (s : State) : Host.Outcome State Fault Refusal :=
  match i with
  | .dec => Sys2Proof.Machine.execDec s
  | .enc => Sys2Proof.Machine.execEnc s
  | .join => Sys2Proof.Machine.execJoin s
  | .split => Sys2Proof.Machine.execSplit s

end Sys2Proof.Machine
end

