-- ==== Sys2Proof/Machine/Step.lean ====
section
/-! DEFINITION. One step: the operation that `op` selects is applied once to the values on the input ports
(spec/00_scope.md R12, spec/10_state.md R15). -/

namespace Sys2Proof.Machine

/-- One application of the block, which the host observes. There is no pc to advance (R15). -/
def step (s : State) : Host.Outcome State Fault Refusal := exec (decodeOp s.selectedOp) s

/-- `s` with the table word on the `op` port, where `step` reads its next operation; the operand ports keep their values, and
the outputs follow (`State.out`). This is how an operation comes to run: the host presents it (notes/assumptions/6.md). -/
def State.withFetchWord (s : State) (nbits w : Nat) : State :=
  s.presenting { s.inp with op := opOfTableWord nbits w }

end Sys2Proof.Machine
end

