-- ==== Sys2Proof/Machine/Block.lean ====
section
/-! DEFINITION. The block as one function of its inputs (spec/00_scope.md R12, R13), and the output ports. -/

namespace Sys2Proof.Machine

/-- `Codec : In -> Out`, with the OPEN parameter as an argument (R7, R12, R13). -/
def codec (floatSentinel : Word) (i : In) : Out :=
  match decodeOp i.op with
  | .dec => decOut floatSentinel i
  | .enc => encOut i
  | .join => joinOut i
  | .split => splitOut i

/-- The values on the output ports: at every moment, after reset as at any other, `Codec` of whatever the input ports hold
(R21, R27, R85, R86). -/
def State.out (s : State) : Out := codec Config.floatSentinel s.inp

end Sys2Proof.Machine
end

