-- ==== Sys2Proof/Machine/HostProgram.lean ====
section
/-! DEFINITION. The host, the one agent outside the block (spec/10_state.md R24): the lines it presents (spec/30_encoding.md
R49), the pseudo-operations it expands (R50), and a host program with its observation (spec/70_reset_and_hazards.md R91).
Nothing here is state of the block; `step` is all that runs. -/

namespace Sys2Proof.Machine

/-- Every input port at 0: the value of a port that a line form does not list (R49). -/
def In.zero : In := { op := 0#2, present := false, bin0 := 0#8, bin1 := 0#8, fin := 0#32, rin := 0#16 }

/-- The outputs of the lines run so far, in order, each under its line's label. -/
abbrev Trace := List (Label × Out)

/-- The outputs of the line labelled `l`. -/
def Trace.outputsOf (tr : Trace) (l : Label) : Option Out := tr.lookup l

/-- The byte a byte operand stands for (R49). -/
def evalByte (tr : Trace) : ByteArg → Option Byte
  | .lit b => some b
  | .bout0 l => (tr.outputsOf l).map Out.bout0
  | .bout1 l => (tr.outputsOf l).map Out.bout1

/-- The register value a 16-bit operand stands for (R49). -/
def evalReg (tr : Trace) : RegArg → Option Half
  | .lit r => some r
  | .rout l => (tr.outputsOf l).map Out.rout

/-- The binary32 a decimal literal stands for: the one nearest to it, ties to even (R49). -/
def decimalToF32 (d : Decimal) : Word := f32Nearest d.neg d.digits (10 ^ d.places)

/-- The binary32 a floating-point operand stands for (R49). -/
def evalFloat (tr : Trace) : FloatArg → Option Word
  | .bits b => some b
  | .decimal d => some (decimalToF32 d)
  | .fout l => (tr.outputsOf l).map Out.fout

/-- The ports a line form presents: R49's table, the ports it does not list being 0. `none` where an operand refers to no
earlier line; a well-formed program has no such line (notes/assumptions/7.md). -/
def linePorts (tr : Trace) : LineForm → Option In
  | .dec b0 b1 => do
    let v0 ← evalByte tr b0
    let v1 ← evalByte tr b1
    some { In.zero with op := encodeOp .dec, present := true, bin0 := v0, bin1 := v1 }
  | .decAbsent => some { In.zero with op := encodeOp .dec }
  | .enc f => do
    let v ← evalFloat tr f
    some { In.zero with op := encodeOp .enc, fin := v }
  | .join b0 b1 => do
    let v0 ← evalByte tr b0
    let v1 ← evalByte tr b1
    some { In.zero with op := encodeOp .join, bin0 := v0, bin1 := v1 }
  | .split r => do
    let v ← evalReg tr r
    some { In.zero with op := encodeOp .split, rin := v }

/-- The host presents one operation and applies it. The step runs on a block in any state `s`. -/
def applyOne (s : State) (i : In) : Option State :=
  match step (s.presenting i) with
  | .next t => some t
  | .fault _ => none
  | .refused _ => none

/-- The host presents operations and applies them, one after another (R35). -/
def applyAll : State → List In → Option State
  | s, [] => some s
  | s, i :: rest => do
    let t ← applyOne s i
    applyAll t rest

/-- The lines of a host program, run after lines labelled `done`, whose outputs the host has observed. -/
def runLines : State → List Label → List Line → Option State
  | s, _, [] => some s
  | s, done, l :: rest => do
    let i ← linePorts (done.zip s.observed) l.form
    let t ← applyOne s i
    runLines t (done ++ [l.label]) rest

/-- A host program run on a block in state `s`: its observation starts empty, is the list of the outputs of every line, in
order, and ends after its last line (R91). -/
def runProgram (s : State) (p : List Line) : Option (List Out) :=
  (runLines { s with observed := [] } [] p).map State.observed

/-- The expansion of a line as written (R50): the last line carries the pseudo-operation's own label, so that its outputs are
those of the last line. -/
def expandLine : SourceLine → List Line
  | .plain n form => [⟨.line n, form⟩]
  | .thresh n f => [⟨.t0 n, .enc f⟩, ⟨.line n, .split (.rout (.t0 n))⟩]
  | .rtrip n f =>
    [⟨.t0 n, .enc f⟩, ⟨.t1 n, .split (.rout (.t0 n))⟩, ⟨.line n, .dec (.bout0 (.t1 n)) (.bout1 (.t1 n))⟩]

/-- The host program a written program stands for (R50). -/
def expandAll (src : List SourceLine) : List Line := src.flatMap expandLine

end Sys2Proof.Machine
end

