-- ==== Sys2Proof/Safety.lean ====
section
/-! DEFINITION. What the claims say: what an operation lets the host observe, and which outputs are legal. -/

namespace Sys2Proof.Machine

/-- Operation `i` completes on `s`, and all it does is let the host observe the outputs `o`. -/
abbrev Observes (i : Instr) (s : State) (o : Out) : Prop := exec i s = .next (s.observing o)

/-- A multiple of 0.0625 from -128.0 to 127.9375, as a binary32 that is not -0.0 (R54). -/
def IsDecResult (b : Word) : Prop :=
  b ≠ 0x80000000#32 ∧ ∃ k : ℤ, -2048 ≤ k ∧ k ≤ 2047 ∧ f32val b = some (k * res)

/-- The register values a successful ENC drives (R63). -/
def IsEncResult (r : Half) : Prop :=
  (∃ k : ℤ, -640 ≤ k ∧ k ≤ 2047 ∧ r = u16 (16 * k)) ∨ r = 0x8000#16

/-- Outputs that SOME operation of the block can drive, told apart by the status and by which data ports are non-zero: the
status is never BusError (R74), an error comes with its sentinel (R75), an undriven port is 0 (R22), and `fout` under OK is a
DEC result (R54), the 0 of an undriven port included. -/
def Out.Legal (o : Out) : Prop :=
  o.status ≠ statusBusError ∧
  (o.status = statusInvalidInput → o.fout = Config.floatSentinel ∧ o.rout = 0#16 ∧ o.bout0 = 0#8 ∧ o.bout1 = 0#8) ∧
  (o.status = statusOutOfRange → o.fout = 0#32 ∧ o.rout = u16Sentinel ∧ o.bout0 = 0#8 ∧ o.bout1 = 0#8) ∧
  (o.status = statusOk → IsDecResult o.fout) ∧
  (o.fout ≠ 0#32 → o.rout = 0#16 ∧ o.bout0 = 0#8 ∧ o.bout1 = 0#8) ∧
  (o.rout ≠ 0#16 → o.fout = 0#32 ∧ o.bout0 = 0#8 ∧ o.bout1 = 0#8)

/-- The invariant: the output ports are legal, and so is every record the host has observed. -/
def State.Inv (s : State) : Prop := s.out.Legal ∧ ∀ o ∈ s.observed, o.Legal

end Sys2Proof.Machine
end

