-- ==== Sys2Proof/Certificates/Slice0/Obligations.lean ====
section
/-! DEFINITION. The statements for the provers, in the order of the spec's files. Each docstring names the rule it formalises;
`Config.floatSentinel` is OPEN, and no statement rests on its value. -/

open Sys2Proof Sys2Proof.Machine

/-! ## spec/00_scope.md -/

/-- R7, R8: the fixed parameters fit together, and the limit patterns denote the ends of ENC's range. -/
def Obligations.ParametersAgree : Prop :=
  res = (2 : ℚ) ^ (-(fracBits : ℤ)) ∧ intBits + fracBits = regBits ∧ res = 1 / 16 ∧
  f32val tminBits = some tmin ∧ f32val tmaxBits = some tmax ∧
  f32Mag tmaxBits = posLimit ∧ f32Mag tminBits = negLimit

/-- R8: for an input in ENC's range, dividing by RES gives a value in [-640, 2048] that binary32 holds exactly. -/
def Obligations.ScalingInRangeIsExact : Prop :=
  ∀ (b : Word) (x : ℚ), f32val b = some x → -40 ≤ x → x ≤ 128 →
    x / res = 16 * x ∧ -640 ≤ x / res ∧ x / res ≤ 2048 ∧ ∃ c : Word, f32val c = some (x / res)

/-- R11: `f32bits`. For k ≠ 0 in R47's range, `f32_of_k` is the only pattern whose value is k × 0.0625. -/
def Obligations.F32OfKIsTheOnlyPattern : Prop :=
  ∀ (k : ℤ) (b : Word), -2048 ≤ k → k ≤ 2048 → k ≠ 0 → (f32val b = some ((k : ℚ) / 16) ↔ b = f32OfK k)

/-! ## spec/10_state.md -/

/-- R19 (its column "read by"): an operation's outputs are the same in two states that agree on the ports it reads. -/
def Obligations.OperationReadsOnlyItsPorts : Prop :=
  ∀ s t : State,
    (s.inp.present = t.inp.present → s.inp.bin0 = t.inp.bin0 → s.inp.bin1 = t.inp.bin1 →
      ∃ o, Observes .dec s o ∧ Observes .dec t o) ∧
    (s.inp.fin = t.inp.fin → ∃ o, Observes .enc s o ∧ Observes .enc t o) ∧
    (s.inp.bin0 = t.inp.bin0 → s.inp.bin1 = t.inp.bin1 → ∃ o, Observes .join s o ∧ Observes .join t o) ∧
    (s.inp.rin = t.inp.rin → ∃ o, Observes .split s o ∧ Observes .split t o)

/-- R21: two operations with equal inputs give equal outputs, whatever went before. -/
def Obligations.OutputsDependOnInputsAlone : Prop :=
  ∀ s t : State, s.inp = t.inp →
    s.out = t.out ∧ ∃ o, step s = .next (s.observing o) ∧ step t = .next (t.observing o)

/-- R22: every output port that the operation does not drive is 0. With it the frame of all four operations, which R22 does not
give: the inputs are the host's and keep their values, and the records observed before stay (R24, R33; the model's reading of
them is notes/assumptions/1.md and 6.md). The block has no register, flag or memory byte to frame (R14, R16, R28). -/
def Obligations.UndrivenOutputsAreZero : Prop :=
  ∀ (i : Instr) (s t : State), exec i s = .next t →
    t.inp = s.inp ∧ ∃ o : Out, t.observed = s.observed ++ [o] ∧
      (i = .dec → o.rout = 0#16 ∧ o.bout0 = 0#8 ∧ o.bout1 = 0#8) ∧
      (i = .enc → o.fout = 0#32 ∧ o.bout0 = 0#8 ∧ o.bout1 = 0#8) ∧
      (i = .join → o.fout = 0#32 ∧ o.bout0 = 0#8 ∧ o.bout1 = 0#8) ∧
      (i = .split → o.fout = 0#32 ∧ o.rout = 0#16)

/-- R23: DEC reads `present`, since its status tells the two values apart; ENC, JOIN and SPLIT ignore it. -/
def Obligations.OnlyDecReadsPresent : Prop :=
  ∀ (s : State) (p : Bool),
    (∃ o o' : Out, Observes .dec (s.presenting { s.inp with present := true }) o ∧
      Observes .dec (s.presenting { s.inp with present := false }) o' ∧ o.status ≠ o'.status) ∧
    ∀ i : Instr, i ≠ .dec → ∃ o, Observes i s o ∧ Observes i (s.presenting { s.inp with present := p }) o

/-! ## spec/20_memory.md -/

/-- R33: an operation repeated with the same inputs gives the same outputs, on the ports and in the observation. -/
def Obligations.OperationsAreIdempotent : Prop :=
  ∀ s : State, ∃ o : Out, step s = .next (s.observing o) ∧ (s.observing o).out = s.out ∧
    step (s.observing o) = .next ((s.observing o).observing o)

/-! ## spec/30_encoding.md -/

/-- R38: the value on the `op` port, and nothing else, selects the operation. -/
def Obligations.OpPortSelectsOperation : Prop :=
  ∀ s : State,
    (s.inp.op = 0b00#2 → step s = exec .dec s) ∧ (s.inp.op = 0b01#2 → step s = exec .enc s) ∧
    (s.inp.op = 0b10#2 → step s = exec .join s) ∧ (s.inp.op = 0b11#2 → step s = exec .split s)

/-- R40: decoding is a bijection, and no value of `op` traps or is refused. -/
def Obligations.DecodingIsABijection : Prop :=
  Function.Bijective decodeOp ∧ ∀ s : State, ∃ t, step s = .next t

/-- Decode and encode agree, both ways (R38, R40). -/
def Obligations.DecodeEncodeAgree : Prop :=
  (∀ i : Instr, i.wellFormed = true → decodeOp (encodeOp i) = i) ∧ ∀ op : Pair, encodeOp (decodeOp op) = op

/-- The words of spec/opcode_table.json, written out, decode to their rows. -/
def Obligations.TableWordsDecode : Prop :=
  decodeTableWord 8 0b00000000 = some .dec ∧ decodeTableWord 8 0b00000001 = some .enc ∧
  decodeTableWord 8 0b00000010 = some .join ∧ decodeTableWord 8 0b00000011 = some .split

/-- A step runs the operation that the `op` port decodes to (R12, R15, R38). -/
def Obligations.StepRunsDecodedOperation : Prop :=
  ∀ (s : State) (i : Instr), i.wellFormed = true → decodeOp s.inp.op = i → step s = exec i s

/-- A table word placed where the step reads it is what the next step runs. Placing it changes the `op` port only, and the outputs
follow the inputs before that step. -/
def Obligations.PlacedWordRunsNext : Prop :=
  ∀ (s : State) (nbits w : Nat) (i : Instr), decodeTableWord nbits w = some i →
    step (s.withFetchWord nbits w) = exec i (s.withFetchWord nbits w) ∧
    (s.withFetchWord nbits w).observed = s.observed ∧
    (s.withFetchWord nbits w).inp = { s.inp with op := (s.withFetchWord nbits w).inp.op } ∧
    Observes i (s.withFetchWord nbits w) (s.withFetchWord nbits w).out

/-- R42: how a register value is read. -/
def Obligations.RegisterValueFormat : Prop :=
  ∀ r : Half,
    regK r = (if r.getLsbD 15 then ((r.extractLsb' 4 12).toNat : ℤ) - 4096 else (r.extractLsb' 4 12).toNat) ∧
    -2048 ≤ regK r ∧ regK r ≤ 2047 ∧ regValue r = regK r * (1 / 16) ∧ (r.getLsbD 15 = true ↔ regK r < 0) ∧
    (wellFormedReg r = true ↔ r.extractLsb' 0 4 = 0#4)

/-- R43: the values a register value can denote, each denoted by 16 patterns that differ in bits 3..0 only. -/
def Obligations.RegisterValuesDenoted : Prop :=
  Set.range regValue = { q | ∃ k : ℤ, -2048 ≤ k ∧ k ≤ 2047 ∧ (k : ℚ) * (1 / 16) = q } ∧
  Set.ncard (Set.range regValue) = 4096 ∧ regValue 0x8000#16 = -128 ∧ regValue 0x7FF0#16 = 127 + 15 / 16 ∧
  (∀ r, regValue r ≠ 128) ∧
  (∀ r r', regValue r = regValue r' ↔ r &&& 0xFFF0#16 = r' &&& 0xFFF0#16) ∧
  ∀ q ∈ Set.range regValue, Set.ncard { r | regValue r = q } = 16

/-- R46: for equal signs, magnitude grows with bits 30..0, and infinity is greater than every finite magnitude. -/
def Obligations.MagnitudeFollowsLowBits : Prop :=
  (∀ (b c : Word) (x y : ℚ), f32Sign b = f32Sign c → f32val b = some x → f32val c = some y →
    (|x| ≤ |y| ↔ (b.extractLsb' 0 31).toNat ≤ (c.extractLsb' 0 31).toNat)) ∧
  ∀ (b c : Word) (x : ℚ), f32Sign b = f32Sign c → f32val b = some x → f32IsInf c = true →
    (b.extractLsb' 0 31).toNat < (c.extractLsb' 0 31).toNat

/-- R47: `f32_of_k` by its formula; its value is exactly k × 0.0625; zero is +0.0; the rule's examples. -/
def Obligations.F32OfKIsExact : Prop :=
  (∀ k : ℤ, -2048 ≤ k → k ≤ 2047 →
    f32val (f32OfK k) = some ((k : ℚ) * (1 / 16)) ∧ f32OfK k ≠ 0x80000000#32 ∧
    (k ≠ 0 → (f32OfK k).toNat = (if k < 0 then 2 ^ 31 else 0) + (123 + k.natAbs.log2) * 2 ^ 23 +
      (k.natAbs - 2 ^ k.natAbs.log2) * 2 ^ (23 - k.natAbs.log2))) ∧
  f32OfK 0 = 0x00000000#32 ∧ f32OfK 1 = 0x3D800000#32 ∧ f32OfK (-1) = 0xBD800000#32 ∧
  f32OfK (-880) = 0xC25C0000#32 ∧ f32OfK 2047 = 0x42FFE000#32 ∧ f32OfK (-2048) = 0xC3000000#32

/-- R49: the ports each line form presents, whatever its operands, the ports that the form does not list being 0; and what each
form of operand stands for, a literal of any kind or a reference to an output of an earlier line. What `decimalToF32` gives is
DecimalLiteralIsNearest. -/
def Obligations.LineFormsPresentTheirPorts : Prop :=
  ∀ tr : Trace,
    (∀ (a0 a1 : ByteArg) (b0 b1 : Byte), evalByte tr a0 = some b0 → evalByte tr a1 = some b1 →
      linePorts tr (.dec a0 a1) = some ⟨0b00#2, true, b0, b1, 0#32, 0#16⟩ ∧
      linePorts tr (.join a0 a1) = some ⟨0b10#2, false, b0, b1, 0#32, 0#16⟩) ∧
    linePorts tr .decAbsent = some ⟨0b00#2, false, 0#8, 0#8, 0#32, 0#16⟩ ∧
    (∀ (a : FloatArg) (f : Word), evalFloat tr a = some f →
      linePorts tr (.enc a) = some ⟨0b01#2, false, 0#8, 0#8, f, 0#16⟩) ∧
    (∀ (a : RegArg) (r : Half), evalReg tr a = some r →
      linePorts tr (.split a) = some ⟨0b11#2, false, 0#8, 0#8, 0#32, r⟩) ∧
    (∀ (b : Byte) (f : Word) (d : Decimal) (r : Half),
      evalByte tr (.lit b) = some b ∧ evalFloat tr (.bits f) = some f ∧
      evalFloat tr (.decimal d) = some (decimalToF32 d) ∧ evalReg tr (.lit r) = some r) ∧
    ∀ (l : Label) (o : Out), tr.lookup l = some o →
      evalByte tr (.bout0 l) = some o.bout0 ∧ evalByte tr (.bout1 l) = some o.bout1 ∧
      evalFloat tr (.fout l) = some o.fout ∧ evalReg tr (.rout l) = some o.rout

/-- R49: a decimal literal stands for the binary32 nearest to it, with ties to even: no finite pattern's value is nearer, and
another value as near means that the last fraction bit is 0. The bound is where IEEE 754 rounds a finite literal past the
greatest finite pattern. -/
def Obligations.DecimalLiteralIsNearest : Prop :=
  ∀ (d : Decimal) (q : ℚ), q = (if d.neg then -1 else 1) * (d.digits : ℚ) / 10 ^ d.places → |q| < 2 ^ 128 - 2 ^ 103 →
    ∃ y : ℚ, f32val (decimalToF32 d) = some y ∧
      ∀ (c : Word) (z : ℚ), f32val c = some z →
        |q - y| ≤ |q - z| ∧ (|q - z| = |q - y| → z ≠ y → (decimalToF32 d).getLsbD 0 = false)

/-- The two cases that R49's sentence does not reach, which are THE MODEL'S CHOICE (PRESUMED, notes/assumptions/8.md): a literal
that rounds past the greatest finite pattern is infinity, and the sign written is kept, also on a zero. -/
def Obligations.DecimalLiteralEdges : Prop :=
  ∀ d : Decimal, f32Sign (decimalToF32 d) = d.neg ∧
    (2 ^ 128 - 2 ^ 103 ≤ (d.digits : ℚ) / 10 ^ d.places → f32IsInf (decimalToF32 d) = true)

/-- R50: what THRESH and RTRIP of any literal run on any block: ENC, then SPLIT of ENC's `rout` (U16_SENTINEL included, if ENC reports
OutOfRange), then for RTRIP a DEC of SPLIT's bytes. The observation is every line's, the last record the pseudo-operation's. -/
def Obligations.PseudoOperationsChain : Prop :=
  ∀ (s : State) (n : Nat) (a : FloatArg) (f : Word), evalFloat [] a = some f →
    ∃ e p d : Out,
      Observes .enc (s.presenting ⟨0b01#2, false, 0#8, 0#8, f, 0#16⟩) e ∧
      Observes .split (s.presenting ⟨0b11#2, false, 0#8, 0#8, 0#32, e.rout⟩) p ∧
      Observes .dec (s.presenting ⟨0b00#2, true, p.bout0, p.bout1, 0#32, 0#16⟩) d ∧
      runProgram s (expandLine (.thresh n a)) = some [e, p] ∧
      runProgram s (expandLine (.rtrip n a)) = some [e, p, d]

/-! ## spec/40_codec.md -/

/-- R51: DEC. k is the signed value of bits 15..4 of the assembled bytes. -/
def Obligations.DecResult : Prop :=
  decodeOp 0b00#2 = .dec ∧
  ∀ s : State,
    (s.inp.present = true → exec .dec s = .next (s.observing
      { status := 0b00#2, fout := f32OfK ((s.inp.bin0 ++ s.inp.bin1).extractLsb' 4 12).toInt,
        rout := 0#16, bout0 := 0#8, bout1 := 0#8 })) ∧
    (s.inp.present = false → exec .dec s = .next (s.observing
      { status := 0b01#2, fout := Config.floatSentinel, rout := 0#16, bout0 := 0#8, bout1 := 0#8 })) ∧
    (s.inp.present = true → s.inp.bin0 = 0x00#8 → s.inp.bin1 = 0x00#8 →
      exec .dec s = .next (s.observing ⟨0b00#2, 0x00000000#32, 0#16, 0#8, 0#8⟩)) ∧
    (s.inp.present = true → s.inp.bin0 = 0x80#8 → s.inp.bin1 = 0x00#8 →
      exec .dec s = .next (s.observing ⟨0b00#2, 0xC3000000#32, 0#16, 0#8, 0#8⟩)) ∧
    (s.inp.present = true → s.inp.bin0 = 0x7F#8 → s.inp.bin1 = 0xF0#8 →
      exec .dec s = .next (s.observing ⟨0b00#2, 0x42FFE000#32, 0#16, 0#8, 0#8⟩)) ∧
    (s.inp.present = true → s.inp.bin0 = 0xC9#8 → s.inp.bin1 = 0x00#8 →
      exec .dec s = .next (s.observing ⟨0b00#2, 0xC25C0000#32, 0#16, 0#8, 0#8⟩))

/-- R52: the arithmetic reading and the logical reading of DEC's shift give the same `sh16`, sext_16(v16[15:4]). -/
def Obligations.DecShiftReadingsAgree : Prop :=
  ∀ b0 b1 : Byte,
    decSh16 b0 b1 = (b0 ++ b1 : Half).sshiftRight 4 ∧
    decSh16 b0 b1 = ((b0 ++ b1 : Half) >>> 4) ||| (if b0.getLsbD 7 then 0xF000#16 else 0x0000#16) ∧
    decSh16 b0 b1 = ((b0 ++ b1 : Half).extractLsb' 4 12).signExtend 16 ∧
    (b0 ++ b1 : Half).sshiftRight 4 ||| (if b0.getLsbD 7 then 0xF000#16 else 0x0000#16) = decSh16 b0 b1

/-- R53: DEC ignores the low 4 bits of the assembled value. -/
def Obligations.DecIgnoresLowBits : Prop :=
  ∀ s : State,
    (∃ o, exec .dec s = .next (s.observing o) ∧
      Observes .dec (s.presenting { s.inp with bin1 := s.inp.bin1 &&& 0xF0#8 }) o) ∧
    (s.inp.present = true → s.inp.bin0 = 0x7F#8 → s.inp.bin1 = 0xFF#8 →
      exec .dec s = .next (s.observing ⟨0b00#2, 0x42FFE000#32, 0#16, 0#8, 0#8⟩)) ∧
    (s.inp.present = true → s.inp.bin0 = 0xFF#8 → s.inp.bin1 = 0xFF#8 →
      exec .dec s = .next (s.observing ⟨0b00#2, 0xBD800000#32, 0#16, 0#8, 0#8⟩))

/-- R54: with its bytes present DEC succeeds, with a multiple of 0.0625 in [-128.0, 127.9375] that is no NaN, infinity,
subnormal or -0.0; it does not clamp. -/
def Obligations.DecAlwaysSucceeds : Prop :=
  ∀ s : State, s.inp.present = true →
    ∃ (o : Out) (k : ℤ), exec .dec s = .next (s.observing o) ∧ o.status = 0b00#2 ∧ -2048 ≤ k ∧ k ≤ 2047 ∧
      f32val o.fout = some ((k : ℚ) * (1 / 16)) ∧
      f32IsNaN o.fout = false ∧ f32IsInf o.fout = false ∧ o.fout ≠ 0x80000000#32 ∧
      ¬(f32Exp o.fout = 0 ∧ f32Frac o.fout ≠ 0) ∧
      (s.inp.bin0 = 0xC9#8 → s.inp.bin1 = 0x00#8 → f32val o.fout = some (-55))

/-- R55: DEC multiplies exactly: the value on `fout` is the register value's own. -/
def Obligations.DecMultipliesExactly : Prop :=
  ∀ s : State, s.inp.present = true →
    ∃ o, exec .dec s = .next (s.observing o) ∧ f32val o.fout = some (regValue (s.inp.bin0 ++ s.inp.bin1))

/-- R56: ENC, against the source's algorithm on real values: range check, truncation of x / 0.0625, left shift by 4 mod 2^16,
bit 15 forced from the sign of x. -/
def Obligations.EncMeetsAlgorithm : Prop :=
  decodeOp 0b01#2 = .enc ∧
  ∀ s : State,
    (∀ x : ℚ, f32val s.inp.fin = some x → -40 ≤ x → x ≤ 128 →
      exec .enc s = .next (s.observing
        { status := 0b00#2, fout := 0#32,
          rout := if x < 0 then BitVec.ofInt 16 (truncToward0 (x / (1 / 16)) * 16) ||| 0x8000#16
                  else BitVec.ofInt 16 (truncToward0 (x / (1 / 16)) * 16) &&& 0x7FFF#16,
          bout0 := 0#8, bout1 := 0#8 })) ∧
    ((¬∃ x : ℚ, f32val s.inp.fin = some x ∧ -40 ≤ x ∧ x ≤ 128) →
      exec .enc s = .next (s.observing
        { status := 0b10#2, fout := 0#32, rout := 0x00FF#16, bout0 := 0#8, bout1 := 0#8 }))

/-- R56's corner cases and example, by their binary32 patterns. -/
def Obligations.EncCornerCases : Prop :=
  (∀ s : State, ∀ c ∈ [(0x43000000#32, 0x0000#16), (0x80000000#32, 0x0000#16), (0xC2200000#32, 0xD800#16),
      (0x42FFE000#32, 0x7FF0#16), (0xC1A00000#32, 0xEC00#16)],
    s.inp.fin = c.1 → exec .enc s = .next (s.observing ⟨0b00#2, 0#32, c.2, 0#8, 0#8⟩)) ∧
  ∀ s : State, s.inp.fin ∈ [0x43001000#32, 0xC2204000#32, 0x43000001#32, 0xC2200001#32, 0x7F800000#32, 0xFF800000#32,
      0x7FC00000#32, 0xFFC00000#32, 0x7F800001#32] →
    exec .enc s = .next (s.observing ⟨0b10#2, 0#32, 0x00FF#16, 0#8, 0#8⟩)

/-- R57: ENC's range check is on the real value, inclusive at both ends; NaN and infinities fail it; an input outside it is
rejected, never clamped. -/
def Obligations.EncRangeCheck : Prop :=
  (∀ b : Word, encInRange b = true ↔ ∃ x : ℚ, f32val b = some x ∧ -40 ≤ x ∧ x ≤ 128) ∧
  (∀ (b : Word) (x : ℚ), f32val b = some x → f32Sign b = false →
    (x ≤ 128 ↔ (b.extractLsb' 0 31).toNat ≤ 0x43000000)) ∧
  (∀ (b : Word) (x : ℚ), f32val b = some x → f32Sign b = true →
    (-40 ≤ x ↔ (b.extractLsb' 0 31).toNat ≤ 0x42200000)) ∧
  (∀ b : Word, f32IsNaN b = true → 0x7F800000 < (b.extractLsb' 0 31).toNat ∧ encInRange b = false) ∧
  (∀ b : Word, f32IsInf b = true → (b.extractLsb' 0 31).toNat = 0x7F800000 ∧ encInRange b = false) ∧
  (∀ s : State, encInRange s.inp.fin = false →
    exec .enc s = .next (s.observing ⟨0b10#2, 0#32, 0x00FF#16, 0#8, 0#8⟩)) ∧
  encInRange 0x43001000#32 = false ∧ encInRange 0xC2204000#32 = false ∧
  encInRange 0x43000000#32 = true ∧ encInRange 0xC2200000#32 = true

/-- R58: ENC's integer is x / 0.0625 truncated toward zero, and only the right-shift branch is taken. -/
def Obligations.EncIntegerTruncates : Prop :=
  (∀ (b : Word) (x : ℚ), f32val b = some x → -40 ≤ x → x ≤ 128 →
    encK b = truncToward0 (x / (1 / 16)) ∧ x / (1 / 16) = 16 * x ∧ f32Scale b + 4 ≤ -12 ∧
    (0 ≤ x → encK b = ⌊16 * x⌋ ∧ 0 ≤ encK b ∧ encK b ≤ 2048) ∧
    (x < 0 → encK b = ⌈16 * x⌉ ∧ -640 ≤ encK b ∧ encK b ≤ 0)) ∧
  encK 0x41CA6666#32 = 404 ∧ encK 0xC1207AE1#32 = -160

/-- R59: ENC's left-justified t, for each range of k; k = 2048 comes from x = 128.0 only. -/
def Obligations.EncLeftJustifies : Prop :=
  ∀ (b : Word) (x : ℚ), f32val b = some x → -40 ≤ x → x ≤ 128 →
    encT b = BitVec.ofInt 16 (encK b * 16) ∧ (encT b).extractLsb' 4 12 = BitVec.ofInt 12 (encK b) ∧
    (encT b).extractLsb' 0 4 = 0#4 ∧
    (0 ≤ encK b → encK b ≤ 2047 →
      ((encT b).toNat : ℤ) = 16 * encK b ∧ (encT b).toNat ≤ 0x7FF0 ∧ (encT b).getLsbD 15 = false) ∧
    (-640 ≤ encK b → encK b ≤ -1 →
      ((encT b).toNat : ℤ) = 65536 + 16 * encK b ∧ 0xD800 ≤ (encT b).toNat ∧ (encT b).toNat ≤ 0xFFF0 ∧
      (encT b).getLsbD 15 = true) ∧
    (encK b = 2048 → x = 128 ∧ encT b = 0x8000#16)

/-- R60: bit 15 is forced from the sign of x, which changes t in exactly the two cases of the rule. -/
def Obligations.EncForcesSignBit : Prop :=
  (∀ (s : State) (x : ℚ), f32val s.inp.fin = some x → -40 ≤ x → x ≤ 128 →
    ∃ o, exec .enc s = .next (s.observing o) ∧ o.status = 0b00#2 ∧
      o.rout.getLsbD 15 = decide (x < 0) ∧
      o.rout.extractLsb' 0 15 = (encT s.inp.fin).extractLsb' 0 15 ∧
      (o.rout ≠ encT s.inp.fin ↔ (-1 / 16 < x ∧ x < 0) ∨ x = 128) ∧
      (-1 / 16 < x → x < 0 → encT s.inp.fin = 0x0000#16 ∧ o.rout = 0x8000#16) ∧
      (x = 128 → encT s.inp.fin = 0x8000#16 ∧ o.rout = 0x0000#16)) ∧
  ∀ s : State, s.inp.present = true →
    (s.inp.bin0 = 0x80#8 → s.inp.bin1 = 0x00#8 →
      ∃ o, exec .dec s = .next (s.observing o) ∧ f32val o.fout = some (-128)) ∧
    (s.inp.bin0 = 0x00#8 → s.inp.bin1 = 0x00#8 → ∃ o, exec .dec s = .next (s.observing o) ∧ f32val o.fout = some 0)

/-- R61: negative zero is in range and not negative; the negative subnormals are negative. -/
def Obligations.EncNegativeZeroAndSubnormals : Prop :=
  (encInRange 0x80000000#32 = true ∧ encNeg 0x80000000#32 = false ∧ encK 0x80000000#32 = 0) ∧
  (∀ s : State, s.inp.fin = 0x80000000#32 →
    exec .enc s = .next (s.observing ⟨0b00#2, 0#32, 0x0000#16, 0#8, 0#8⟩)) ∧
  ∀ s : State, 0x80000001#32 ≤ s.inp.fin → s.inp.fin ≤ 0x807FFFFF#32 →
    encNeg s.inp.fin = true ∧ exec .enc s = .next (s.observing ⟨0b00#2, 0#32, 0x8000#16, 0#8, 0#8⟩)

/-- R62: the low 4 bits of a successful ENC result are 0. -/
def Obligations.EncLowBitsAreZero : Prop :=
  ∀ (s : State) (o : Out), exec .enc s = .next (s.observing o) → o.status = 0b00#2 →
    o.rout &&& 0x000F#16 = 0x0000#16 ∧ encT s.inp.fin &&& 0x000F#16 = 0x0000#16

/-- R63: the successful ENC results, as a set, where 0x0000 and 0x8000 come from, and that the sentinel is none of them. -/
def Obligations.EncResultSet : Prop :=
  (∀ r : Half, (∃ (s : State) (o : Out), exec .enc s = .next (s.observing o) ∧ o.status = 0b00#2 ∧ o.rout = r) ↔
    IsEncResult r) ∧
  (∀ r : Half, IsEncResult r ↔
    r &&& 0x000F#16 = 0#16 ∧ (r ≤ 0x7FF0#16 ∨ 0xD800#16 ≤ r ∨ r = 0x8000#16)) ∧
  Set.ncard { r | IsEncResult r } = 2689 ∧ ¬IsEncResult 0x00FF#16 ∧
  ∀ (s : State) (x : ℚ), f32val s.inp.fin = some x → -40 ≤ x → x ≤ 128 →
    ∃ o, exec .enc s = .next (s.observing o) ∧ o.status = 0b00#2 ∧
      (o.rout = 0x0000#16 ↔ (0 ≤ x ∧ x < 1 / 16) ∨ x = 128) ∧
      (o.rout = 0x8000#16 ↔ -1 / 16 < x ∧ x < 0)

/-- R64: the round trip DEC(SPLIT(ENC(x))), its whole table, and its exactness on the grid. The SPLIT and the DEC run on any state
that presents what the operation before let the host observe. -/
def Obligations.RoundTrip : Prop :=
  ∀ (s : State) (x : ℚ), f32val s.inp.fin = some x → -40 ≤ x → x ≤ 128 →
    ∃ e p d : Out,
      exec .enc s = .next (s.observing e) ∧
      (∀ t : State, t.inp.rin = e.rout → exec .split t = .next (t.observing p)) ∧
      (∀ u : State, u.inp.present = true → u.inp.bin0 = p.bout0 → u.inp.bin1 = p.bout1 →
        exec .dec u = .next (u.observing d)) ∧
      d.status = 0b00#2 ∧
      (0 ≤ x → x < 128 →
        f32val d.fout = some ((⌊16 * x⌋ : ℚ) / 16) ∧ x - 1 / 16 < (⌊16 * x⌋ : ℚ) / 16 ∧ (⌊16 * x⌋ : ℚ) / 16 ≤ x) ∧
      (s.inp.fin = 0x80000000#32 → d.fout = 0x00000000#32) ∧
      (x ≤ -1 / 16 →
        f32val d.fout = some ((⌈16 * x⌉ : ℚ) / 16) ∧ x ≤ (⌈16 * x⌉ : ℚ) / 16 ∧ (⌈16 * x⌉ : ℚ) / 16 < x + 1 / 16) ∧
      (-1 / 16 < x → x < 0 → f32val d.fout = some (-128)) ∧
      (x = 128 → d.fout = 0x00000000#32) ∧
      (∀ k : ℤ, -640 ≤ k → k ≤ 2047 → x = k * (1 / 16) → f32val d.fout = some x)

/-- R65: re-encoding what DEC decoded. -/
def Obligations.ReEncode : Prop :=
  (∀ s : State, s.inp.present = true →
    ∃ (o : Out) (y : ℚ), exec .dec s = .next (s.observing o) ∧ f32val o.fout = some y ∧ o.fout ≠ 0x80000000#32 ∧
      ((-40 ≤ y ∧ y ≤ 128) ↔ (-640 ≤ regK (s.inp.bin0 ++ s.inp.bin1) ∧ regK (s.inp.bin0 ++ s.inp.bin1) ≤ 2047)) ∧
      (-40 ≤ y → y ≤ 128 → ∀ t : State, t.inp.fin = o.fout → exec .enc t = .next (t.observing
        ⟨0b00#2, 0#32, (s.inp.bin0 ++ s.inp.bin1) &&& 0xFFF0#16, 0#8, 0#8⟩)) ∧
      (¬(-40 ≤ y ∧ y ≤ 128) → regK (s.inp.bin0 ++ s.inp.bin1) < -640 ∧
        ∀ t : State, t.inp.fin = o.fout → exec .enc t = .next (t.observing ⟨0b10#2, 0#32, 0x00FF#16, 0#8, 0#8⟩))) ∧
  ∀ s : State, s.inp.fin = 0xBD800000#32 →
    exec .enc s = .next (s.observing ⟨0b00#2, 0#32, 0xFFF0#16, 0#8, 0#8⟩)

/-! ## spec/41_byte_order.md -/

/-- R66: JOIN. The first byte is bits 15..8 of the result, the second bits 7..0; no error; the rule's corner cases. -/
def Obligations.JoinResult : Prop :=
  decodeOp 0b10#2 = .join ∧
  ∀ s : State,
    ∃ r : Half, exec .join s = .next (s.observing ⟨0b00#2, 0#32, r, 0#8, 0#8⟩) ∧
      r.extractLsb' 8 8 = s.inp.bin0 ∧ r.extractLsb' 0 8 = s.inp.bin1 ∧
      r.toNat = s.inp.bin0.toNat * 256 + s.inp.bin1.toNat ∧
      (s.inp.bin0 = 0x00#8 → s.inp.bin1 = 0xFF#8 → r = 0x00FF#16) ∧
      (s.inp.bin0 = 0xFF#8 → s.inp.bin1 = 0xFF#8 → r = 0xFFFF#16) ∧
      (s.inp.bin0 = 0x60#8 → s.inp.bin1 = 0xA0#8 → r = 0x60A0#16)

/-- R67: SPLIT. No bit of the value is validated, and every bit goes to a byte; no error; the rule's corner cases. -/
def Obligations.SplitResult : Prop :=
  decodeOp 0b11#2 = .split ∧
  ∀ s : State,
    ∃ b0 b1 : Byte, exec .split s = .next (s.observing ⟨0b00#2, 0#32, 0#16, b0, b1⟩) ∧
      b0.toNat = s.inp.rin.toNat / 256 ∧ b1.toNat = s.inp.rin.toNat % 256 ∧
      (s.inp.rin = 0x00FF#16 → b0 = 0x00#8 ∧ b1 = 0xFF#8) ∧ (s.inp.rin = 0xEC00#16 → b0 = 0xEC#8 ∧ b1 = 0x00#8)

/-- R68: JOIN and SPLIT are inverse, both ways, on any states that present what the one before let the host observe. -/
def Obligations.JoinSplitInverse : Prop :=
  (∀ s : State, ∃ p j : Out, exec .split s = .next (s.observing p) ∧
    (∀ t : State, t.inp.bin0 = p.bout0 → t.inp.bin1 = p.bout1 → exec .join t = .next (t.observing j)) ∧
    j.rout = s.inp.rin) ∧
  ∀ s : State, ∃ j p : Out, exec .join s = .next (s.observing j) ∧
    (∀ t : State, t.inp.rin = j.rout → exec .split t = .next (t.observing p)) ∧
    p.bout0 = s.inp.bin0 ∧ p.bout1 = s.inp.bin1

/-- R69: DEC assembles its bytes as JOIN does. -/
def Obligations.DecAssemblesAsJoin : Prop :=
  ∀ s : State, ∃ j, exec .join s = .next (s.observing j) ∧ decK s.inp.bin0 s.inp.bin1 = regK j.rout ∧
    (s.inp.present = true → ∃ o, exec .dec s = .next (s.observing o) ∧ o.fout = f32OfK (regK j.rout))

/-! ## spec/60_exceptions.md -/

/-- R73: which operation reports which code, and exactly when. -/
def Obligations.WhenEachStatus : Prop :=
  ∀ s : State,
    (∃ o, exec .dec s = .next (s.observing o) ∧
      (s.inp.present = true → o.status = 0b00#2) ∧ (s.inp.present = false → o.status = 0b01#2)) ∧
    (∃ o, exec .enc s = .next (s.observing o) ∧
      ((∃ x : ℚ, f32val s.inp.fin = some x ∧ -40 ≤ x ∧ x ≤ 128) → o.status = 0b00#2) ∧
      ((¬∃ x : ℚ, f32val s.inp.fin = some x ∧ -40 ≤ x ∧ x ≤ 128) → o.status = 0b10#2)) ∧
    (∃ o, exec .join s = .next (s.observing o) ∧ o.status = 0b00#2) ∧
    (∃ o, exec .split s = .next (s.observing o) ∧ o.status = 0b00#2)

/-- R74: the block never drives BusError, on its ports or in what a step lets the host observe. -/
def Obligations.NeverBusError : Prop :=
  ∀ s t : State, s.out.status ≠ 0b11#2 ∧
    (step s = .next t → ∃ o : Out, t.observed = s.observed ++ [o] ∧ o.status ≠ 0b11#2)

/-- R75: an error comes with its sentinel; FLOAT_SENTINEL's value is OPEN. -/
def Obligations.ErrorsDriveSentinels : Prop :=
  (∀ (s : State) (o : Out), exec .dec s = .next (s.observing o) → o.status = 0b01#2 → o.fout = Config.floatSentinel) ∧
  (∀ (s : State) (o : Out), exec .enc s = .next (s.observing o) → o.status = 0b10#2 → o.rout = 0x00FF#16)

/-- R76: whether a sentinel can be mistaken for a result. The clause on 255.0 is about the spec's DEFAULT only. -/
def Obligations.SentinelsAgainstResults : Prop :=
  (∀ (s : State) (o : Out), exec .enc s = .next (s.observing o) → o.status = 0b00#2 → o.rout ≠ 0x00FF#16) ∧
  (∀ (s : State) (o : Out), exec .dec s = .next (s.observing o) → o.status = 0b00#2 →
    o.fout ≠ Config.floatSentinelDefault) ∧
  f32val Config.floatSentinelDefault = some 255 ∧
  ∀ s : State, s.inp.bin0 = 0x00#8 → s.inp.bin1 = 0xFF#8 →
    ∃ o, exec .join s = .next (s.observing o) ∧ o.status = 0b00#2 ∧ o.rout = 0x00FF#16

/-- R78, R79: after an error the ports and the next operation are what they would have been without it. -/
def Obligations.ErrorLeavesNothingBehind : Prop :=
  ∀ (s : State) (i : In), s.out.status ≠ 0b00#2 →
    ∃ (t : State) (o : Out), step s = .next t ∧ (t.presenting i).out = (s.presenting i).out ∧
      step (s.presenting i) = .next ((s.presenting i).observing o) ∧
      step (t.presenting i) = .next ((t.presenting i).observing o)

/-- The whole-machine invariant, over every presentation by the host and every step: the output ports, and every record that the
host has observed, hold what some operation may drive, told by the status (R22, R54, R74, R75). -/
def Obligations.LegalOutputsInvariant : Prop :=
  ∀ (s : State) (i : In), s.Inv → (s.presenting i).Inv ∧ ∀ t : State, step (s.presenting i) = .next t → t.Inv

/-! ## spec/70_reset_and_hazards.md -/

/-- The invariant holds at reset. The inputs at reset are the model's choice (notes/assumptions/2.md). -/
def Obligations.ResetOutputsAreLegal : Prop :=
  State.reset.Inv

/-- R27, R85, R86: at reset the outputs are `Codec` of the inputs then present, whatever the host drives, and nothing has been
observed. The inputs of State.reset, and its empty observation, are the model's choice (notes/assumptions/1.md, 2.md). -/
def Obligations.ResetIsSettled : Prop :=
  State.reset.observed = [] ∧ State.reset.out = codec Config.floatSentinel State.reset.inp ∧
  ∀ i : In, (State.reset.presenting i).out = codec Config.floatSentinel i ∧
    step (State.reset.presenting i) = .next ((State.reset.presenting i).observing (codec Config.floatSentinel i))

/-- R21, R27, R85, R89: the outputs are `Codec` of the inputs at every moment: in any state, right after the host presents others
(no step between), and after a step, which lets the host observe exactly what the ports hold. -/
def Obligations.StepSettlesOutputs : Prop :=
  ∀ (s : State) (i : In) (nbits w : Nat),
    s.out = codec Config.floatSentinel s.inp ∧ (s.presenting i).out = codec Config.floatSentinel i ∧
    (s.withFetchWord nbits w).out = codec Config.floatSentinel (s.withFetchWord nbits w).inp ∧
    ∃ t, step s = .next t ∧ t.inp = s.inp ∧ t.observed = s.observed ++ [s.out] ∧ t.out = s.out

/-- R35, R87, R88: any operations in any order, on a block in any state: each completes, and what the host observes is `Codec` of
each one's own inputs. -/
def Obligations.PresentationsAreIndependent : Prop :=
  ∀ (s : State) (ins : List In),
    ∃ t, applyAll s ins = some t ∧ t.observed = s.observed ++ ins.map (codec Config.floatSentinel) ∧
      t.inp = ins.getLastD s.inp

/-- R91: every line of a host program completes. Its observation is the list of the outputs of every line, in order: line j's
are `Codec` of the ports that the line presents after the j lines before it. It does not depend on the block's state (R87). -/
def Obligations.HostProgramCompletes : Prop :=
  ∀ p : List Line, Program.wellFormed p = true →
    ∃ outs : List Out, outs.length = p.length ∧ (∀ s : State, runProgram s p = some outs) ∧
      ∀ (j : Nat) (l : Line) (o : Out), p[j]? = some l → outs[j]? = some o →
        ∃ i : In, linePorts (((p.take j).map Line.label).zip (outs.take j)) l.form = some i ∧
          o = codec Config.floatSentinel i
end

