-- ==== Sys2Proof/Laws/Binary32.lean ====
section
/-! SUPPORT. The binary32 format: its fields, its values counted in units of 2^-149, and the patterns of `f32OfK`. -/

namespace Sys2Proof.Laws

open Sys2Proof.Machine

theorem f32Exp_lt (b : Word) : f32Exp b < 2 ^ 8 := by
  unfold f32Exp; exact BitVec.isLt _

theorem f32Frac_lt (b : Word) : f32Frac b < 2 ^ 23 := by
  unfold f32Frac; exact BitVec.isLt _

/-- The magnitude bits are the exponent field above the fraction field. -/
theorem f32Mag_eq_fields (b : Word) : f32Mag b = f32Exp b * 2 ^ 23 + f32Frac b := by
  unfold f32Mag f32Exp f32Frac
  simp only [BitVec.extractLsb'_toNat, Nat.shiftRight_eq_div_pow]
  omega

/-- A pattern is its sign bit above its magnitude bits. -/
theorem f32_toNat_eq_sign_mag (b : Word) : b.toNat = (if f32Sign b then 2 ^ 31 else 0) + f32Mag b := by
  have hlt := b.isLt
  unfold f32Sign f32Mag
  rw [BitVec.extractLsb'_toNat, BitVec.getLsbD, Nat.testBit_eq_decide_div_mod_eq, Nat.shiftRight_zero]
  by_cases h : b.toNat / 2 ^ 31 % 2 = 1
  · simp only [h, decide_true, if_true]; omega
  · simp only [h, decide_false]; norm_num; omega

/-- A pattern is determined by its sign, exponent and fraction. -/
theorem f32_ext {b c : Word} (hs : f32Sign b = f32Sign c) (he : f32Exp b = f32Exp c) (hf : f32Frac b = f32Frac c) :
    b = c := by
  apply BitVec.eq_of_toNat_eq
  rw [f32_toNat_eq_sign_mag, f32_toNat_eq_sign_mag c, f32Mag_eq_fields, f32Mag_eq_fields c, hs, he, hf]

/-- |f32val b| in units of 2^-149, the spacing of the least binade: an integer for every finite pattern. -/
def f32Units (b : Word) : Nat := f32Signif b * 2 ^ (f32Scale b + 149).toNat

/-- A finite pattern's value is its count of units, signed. -/
theorem f32val_eq_units {b : Word} {x : ℚ} (h : f32val b = some x) :
    x = (if f32Sign b then -1 else 1) * ((f32Units b : ℚ) / 2 ^ 149) := by
  unfold f32val at h
  split at h
  · simp at h
  · have hs : (0 : ℤ) ≤ f32Scale b + 149 := by unfold f32Scale; split <;> omega
    have hp : (2 : ℚ) ^ f32Scale b = 2 ^ (f32Scale b + 149).toNat / 2 ^ 149 := by
      rw [← zpow_natCast, Int.toNat_of_nonneg hs, zpow_add₀ (by norm_num)]; norm_num
    rw [← Option.some.inj h, hp]
    unfold f32Units
    push_cast; ring

theorem f32val_isSome_iff (b : Word) : (∃ x, f32val b = some x) ↔ f32Exp b ≠ 255 := by
  unfold f32val; split <;> simp_all

/-- |f32val b| is the count of units, unsigned. -/
theorem f32val_abs {b : Word} {x : ℚ} (h : f32val b = some x) : |x| = (f32Units b : ℚ) / 2 ^ 149 := by
  rw [f32val_eq_units h]
  have h0 : (0 : ℚ) ≤ (f32Units b : ℚ) / 2 ^ 149 := by positivity
  split <;> simp [abs_of_nonneg h0]

theorem f32Units_lt_of_mag_lt {b c : Word} (h : f32Mag b < f32Mag c) : f32Units b < f32Units c := by
  have hb := f32Frac_lt b
  have hc := f32Frac_lt c
  rw [f32Mag_eq_fields, f32Mag_eq_fields c] at h
  have eb : (f32Scale b + 149).toNat = f32Exp b - 1 := by unfold f32Scale; split <;> omega
  have ec : (f32Scale c + 149).toNat = f32Exp c - 1 := by unfold f32Scale; split <;> omega
  unfold f32Units
  rw [eb, ec]
  by_cases heq : f32Exp b = f32Exp c
  · rw [heq]
    refine Nat.mul_lt_mul_of_pos_right ?_ (by positivity)
    unfold f32Signif; rw [heq]; split <;> omega
  · have h1 : f32Signif b < 2 ^ 24 := by unfold f32Signif; split <;> omega
    have h2 : 2 ^ 23 ≤ f32Signif c := by unfold f32Signif; split <;> omega
    by_cases h0 : f32Exp b = 0
    · have h1' : f32Signif b < 2 ^ 23 := by unfold f32Signif; split <;> omega
      calc f32Signif b * 2 ^ (f32Exp b - 1) = f32Signif b := by simp [h0]
        _ < 2 ^ 23 := h1'
        _ ≤ f32Signif c := h2
        _ ≤ f32Signif c * 2 ^ (f32Exp c - 1) := Nat.le_mul_of_pos_right _ (by positivity)
    · obtain ⟨d, hd⟩ : ∃ d, f32Exp c - 1 = (f32Exp b - 1) + 1 + d := ⟨f32Exp c - f32Exp b - 1, by omega⟩
      have hd1 : 1 ≤ 2 ^ d := Nat.one_le_two_pow
      have hp : 0 < 2 ^ (f32Exp b - 1) := by positivity
      rw [hd, pow_add, pow_add]
      calc f32Signif b * 2 ^ (f32Exp b - 1) < 2 ^ 24 * 2 ^ (f32Exp b - 1) := Nat.mul_lt_mul_of_pos_right h1 hp
        _ = 2 ^ 23 * (2 ^ (f32Exp b - 1) * 2 ^ 1 * 1) := by ring
        _ ≤ f32Signif c * (2 ^ (f32Exp b - 1) * 2 ^ 1 * 2 ^ d) := by gcongr

/-- The count of units grows with bits 30..0. -/
theorem f32Units_le_iff_mag_le (b c : Word) : f32Units b ≤ f32Units c ↔ f32Mag b ≤ f32Mag c := by
  refine ⟨fun h => Nat.le_of_not_lt fun hlt => absurd (f32Units_lt_of_mag_lt hlt) (by omega), fun h => ?_⟩
  rcases Nat.lt_or_eq_of_le h with hlt | heq
  · exact (f32Units_lt_of_mag_lt hlt).le
  · have hb := f32Frac_lt b
    have hc := f32Frac_lt c
    rw [f32Mag_eq_fields, f32Mag_eq_fields c] at heq
    have he : f32Exp b = f32Exp c := by omega
    have hf : f32Frac b = f32Frac c := by omega
    unfold f32Units f32Signif f32Scale; rw [he, hf]

theorem f32Units_eq_zero_iff (b : Word) : f32Units b = 0 ↔ f32Mag b = 0 := by
  have hb := f32Frac_lt b
  rw [f32Mag_eq_fields]
  unfold f32Units f32Signif
  rw [Nat.mul_eq_zero]
  simp only [Nat.pow_eq_zero]
  split <;> omega

/-- What `f32OfK` puts in the three fields, for k ≠ 0 in the range of R47. -/
theorem f32OfK_fields {k : ℤ} (h0 : k ≠ 0) (hk : k.natAbs ≤ 2048) :
    f32Sign (f32OfK k) = decide (k < 0) ∧ f32Exp (f32OfK k) = 123 + k.natAbs.log2 ∧
    f32Frac (f32OfK k) = (k.natAbs - 2 ^ k.natAbs.log2) * 2 ^ (23 - k.natAbs.log2) := by
  have hm : k.natAbs ≠ 0 := by omega
  have hle : 2 ^ k.natAbs.log2 ≤ k.natAbs := Nat.log2_self_le hm
  have hlt : k.natAbs < 2 ^ (k.natAbs.log2 + 1) := Nat.lt_log2_self
  have he : k.natAbs.log2 ≤ 11 := by
    by_contra hcon
    have : 2 ^ 12 ≤ 2 ^ k.natAbs.log2 := Nat.pow_le_pow_right (by norm_num) (by omega)
    omega
  have hF : (k.natAbs - 2 ^ k.natAbs.log2) * 2 ^ (23 - k.natAbs.log2) < 2 ^ 23 := by
    calc (k.natAbs - 2 ^ k.natAbs.log2) * 2 ^ (23 - k.natAbs.log2)
        < 2 ^ k.natAbs.log2 * 2 ^ (23 - k.natAbs.log2) :=
          Nat.mul_lt_mul_of_pos_right (by rw [pow_succ] at hlt; omega) (by positivity)
      _ = 2 ^ 23 := by rw [← pow_add]; congr 1; omega
  have hN : (f32OfK k).toNat = (if k < 0 then 2 ^ 31 else 0) + (123 + k.natAbs.log2) * 2 ^ 23 +
      (k.natAbs - 2 ^ k.natAbs.log2) * 2 ^ (23 - k.natAbs.log2) := by
    unfold f32OfK
    rw [if_neg h0]
    simp only [BitVec.toNat_append, BitVec.toNat_ofNat]
    rw [Nat.shiftLeft_eq (k.natAbs - 2 ^ k.natAbs.log2), Nat.mod_eq_of_lt hF,
      Nat.mod_eq_of_lt (by omega : 123 + k.natAbs.log2 < 2 ^ 8), ← Nat.shiftLeft_add_eq_or_of_lt hF,
      ← Nat.shiftLeft_add_eq_or_of_lt (by omega : 123 + k.natAbs.log2 < 2 ^ 8)]
    simp only [Nat.shiftLeft_eq]
    split <;> (simp; try ring)
  have hs := f32_toNat_eq_sign_mag (f32OfK k)
  rw [f32Mag_eq_fields, hN] at hs
  have h1 := f32Exp_lt (f32OfK k)
  have h2 := f32Frac_lt (f32OfK k)
  generalize (k.natAbs - 2 ^ k.natAbs.log2) * 2 ^ (23 - k.natAbs.log2) = F at *
  by_cases hneg : k < 0 <;> cases hsg : f32Sign (f32OfK k) <;> simp [hneg, hsg] at hs ⊢ <;> omega

/-- `f32OfK k` is exactly k × 0.0625 (R47). -/
theorem f32val_f32OfK {k : ℤ} (hk : k.natAbs ≤ 2048) : f32val (f32OfK k) = some ((k : ℚ) / 16) := by
  by_cases h0 : k = 0
  · subst h0; decide +kernel
  · obtain ⟨hs, hE, hF⟩ := f32OfK_fields h0 hk
    have hm : k.natAbs ≠ 0 := by omega
    have hle : 2 ^ k.natAbs.log2 ≤ k.natAbs := Nat.log2_self_le hm
    have he : k.natAbs.log2 ≤ 11 := by
      by_contra hcon
      have : 2 ^ 12 ≤ 2 ^ k.natAbs.log2 := Nat.pow_le_pow_right (by norm_num) (by omega)
      omega
    have hM : f32Signif (f32OfK k) = k.natAbs * 2 ^ (23 - k.natAbs.log2) := by
      unfold f32Signif
      rw [if_neg (by omega), hF, Nat.sub_mul, ← pow_add, (by omega : k.natAbs.log2 + (23 - k.natAbs.log2) = 23)]
      have : 2 ^ 23 ≤ k.natAbs * 2 ^ (23 - k.natAbs.log2) := by
        calc 2 ^ 23 = 2 ^ k.natAbs.log2 * 2 ^ (23 - k.natAbs.log2) := by rw [← pow_add]; congr 1; omega
          _ ≤ _ := Nat.mul_le_mul_right _ hle
      omega
    have hP : f32Scale (f32OfK k) = -(4 : ℤ) - ((23 - k.natAbs.log2 : ℕ) : ℤ) := by
      unfold f32Scale; rw [if_neg (by omega), hE]; omega
    unfold f32val
    rw [if_neg (by omega), hM, hP, hs, zpow_sub₀ (by norm_num), zpow_natCast]
    have hp : (2 : ℚ) ^ (23 - k.natAbs.log2) ≠ 0 := by positivity
    congr 1
    push_cast
    by_cases hneg : k < 0
    · have : (k.natAbs : ℚ) = -(k : ℚ) := by
        rw [Nat.cast_natAbs, abs_of_neg hneg]; push_cast; ring
      simp only [hneg, decide_true, if_true, this]
      field_simp; norm_num
    · have : (k.natAbs : ℚ) = (k : ℚ) := by
        rw [Nat.cast_natAbs, abs_of_nonneg (by omega)]
      simp only [hneg, decide_false, this]
      field_simp; norm_num

/-! The rounding of a decimal literal -/

/-- `roundHalfEven n den` is an integer nearest to n / den, and an even one when two are as near. -/
theorem roundHalfEven_nearest (n : ℕ) {den : ℕ} (hd : 0 < den) :
    |(n : ℚ) / den - roundHalfEven n den| ≤ 1 / 2 ∧
    (|(n : ℚ) / den - roundHalfEven n den| = 1 / 2 → roundHalfEven n den % 2 = 0) := by
  have hdq : (0 : ℚ) < den := by exact_mod_cast hd
  have hr : n % den < den := Nat.mod_lt _ hd
  have hrq : ((n % den : ℕ) : ℚ) < den := by exact_mod_cast hr
  have hr0 : (0 : ℚ) ≤ ((n % den : ℕ) : ℚ) := by positivity
  have hn : (n : ℚ) / den = (n / den : ℕ) + ((n % den : ℕ) : ℚ) / den := by
    have h : (n : ℚ) = den * (n / den : ℕ) + (n % den : ℕ) := by exact_mod_cast (Nat.div_add_mod n den).symm
    rw [h]; field_simp
  unfold roundHalfEven
  simp only
  by_cases hup : den < 2 * (n % den) ∨ (2 * (n % den) = den ∧ n / den % 2 = 1)
  · rw [if_pos hup]
    have hge : (den : ℚ) ≤ 2 * (n % den : ℕ) := by exact_mod_cast (by omega : den ≤ 2 * (n % den))
    have hv : (n : ℚ) / den - ((n / den + 1 : ℕ) : ℚ) = ((n % den : ℕ) : ℚ) / den - 1 := by rw [hn]; push_cast; ring
    have hle : ((n % den : ℕ) : ℚ) / den ≤ 1 := by rw [div_le_one hdq]; exact hrq.le
    have hhalf : 1 / 2 ≤ ((n % den : ℕ) : ℚ) / den := by rw [le_div_iff₀ hdq]; linarith
    rw [hv, abs_of_nonpos (by linarith)]
    refine ⟨by linarith, fun h => ?_⟩
    have heq : ((n % den : ℕ) : ℚ) / den = 1 / 2 := by linarith
    rw [div_eq_iff hdq.ne'] at heq
    have : 2 * (n % den) = den := by
      have : (2 : ℚ) * (n % den : ℕ) = den := by linarith
      exact_mod_cast this
    omega
  · rw [if_neg hup]
    have hle : (2 : ℚ) * (n % den : ℕ) ≤ den := by exact_mod_cast (by omega : 2 * (n % den) ≤ den)
    have hv : (n : ℚ) / den - ((n / den : ℕ) : ℚ) = ((n % den : ℕ) : ℚ) / den := by rw [hn]; ring
    have hhalf : ((n % den : ℕ) : ℚ) / den ≤ 1 / 2 := by rw [div_le_iff₀ hdq]; linarith
    rw [hv, abs_of_nonneg (by positivity)]
    refine ⟨hhalf, fun h => ?_⟩
    rw [div_eq_iff hdq.ne'] at h
    have : 2 * (n % den) = den := by
      have : (2 : ℚ) * (n % den : ℕ) = den := by linarith
      exact_mod_cast this
    omega

/-- `floorLog2Ratio n d` is the binade of n / d. -/
theorem floorLog2Ratio_binade {n d : ℕ} (hn : 0 < n) (hd : 0 < d) :
    (2 : ℚ) ^ floorLog2Ratio n d ≤ (n : ℚ) / d ∧ (n : ℚ) / d < 2 ^ (floorLog2Ratio n d + 1) := by
  have hdq : (0 : ℚ) < d := by exact_mod_cast hd
  have hn1 : (2 : ℚ) ^ (n.log2 : ℤ) ≤ n := by rw [zpow_natCast]; exact_mod_cast Nat.log2_self_le hn.ne'
  have hn2 : (n : ℚ) < 2 ^ ((n.log2 : ℤ) + 1) := by
    have h : ((n.log2 : ℤ) + 1) = ((n.log2 + 1 : ℕ) : ℤ) := by push_cast; rfl
    rw [h, zpow_natCast]; exact_mod_cast Nat.lt_log2_self
  have hd1 : (2 : ℚ) ^ (d.log2 : ℤ) ≤ d := by rw [zpow_natCast]; exact_mod_cast Nat.log2_self_le hd.ne'
  have hd2 : (d : ℚ) < 2 ^ ((d.log2 : ℤ) + 1) := by
    have h : ((d.log2 : ℤ) + 1) = ((d.log2 + 1 : ℕ) : ℤ) := by push_cast; rfl
    rw [h, zpow_natCast]; exact_mod_cast Nat.lt_log2_self
  have htest : ((if 0 ≤ (n.log2 : ℤ) - d.log2 then decide (d <<< ((n.log2 : ℤ) - d.log2).toNat ≤ n)
      else decide (d ≤ n <<< (-((n.log2 : ℤ) - d.log2)).toNat)) = true) ↔
      (2 : ℚ) ^ ((n.log2 : ℤ) - d.log2) ≤ (n : ℚ) / d := by
    rw [le_div_iff₀ hdq]
    by_cases hg : 0 ≤ (n.log2 : ℤ) - d.log2
    · obtain ⟨k, hk⟩ := Int.eq_ofNat_of_zero_le hg
      rw [if_pos hg, hk, zpow_natCast, decide_eq_true_eq, Int.toNat_natCast, Nat.shiftLeft_eq, mul_comm d]
      norm_cast
    · obtain ⟨k, hk⟩ := Int.eq_ofNat_of_zero_le (by omega : 0 ≤ -((n.log2 : ℤ) - d.log2))
      have hk' : (n.log2 : ℤ) - d.log2 = -(k : ℤ) := by omega
      have hkq : (0 : ℚ) < 2 ^ k := by positivity
      rw [if_neg hg, hk, hk', zpow_neg, zpow_natCast, decide_eq_true_eq, Int.toNat_natCast, Nat.shiftLeft_eq,
        inv_mul_le_iff₀ hkq, mul_comm n]
      norm_cast
  have hlow : (2 : ℚ) ^ ((n.log2 : ℤ) - d.log2 - 1) ≤ (n : ℚ) / d := by
    rw [le_div_iff₀ hdq]
    calc (2 : ℚ) ^ ((n.log2 : ℤ) - d.log2 - 1) * d ≤ 2 ^ ((n.log2 : ℤ) - d.log2 - 1) * 2 ^ ((d.log2 : ℤ) + 1) := by
          gcongr
      _ = 2 ^ (n.log2 : ℤ) := by rw [← zpow_add₀ (by norm_num)]; congr 1; ring
      _ ≤ n := hn1
  have hhigh : (n : ℚ) / d < 2 ^ ((n.log2 : ℤ) - d.log2 + 1) := by
    rw [div_lt_iff₀ hdq]
    calc (n : ℚ) < 2 ^ ((n.log2 : ℤ) + 1) := hn2
      _ = 2 ^ ((n.log2 : ℤ) - d.log2 + 1) * 2 ^ (d.log2 : ℤ) := by rw [← zpow_add₀ (by norm_num)]; congr 1; ring
      _ ≤ 2 ^ ((n.log2 : ℤ) - d.log2 + 1) * d := by gcongr
  unfold floorLog2Ratio
  simp only
  by_cases ht : (2 : ℚ) ^ ((n.log2 : ℤ) - d.log2) ≤ (n : ℚ) / d
  · rw [if_pos (htest.2 ht)]; exact ⟨ht, hhigh⟩
  · rw [if_neg (fun h => ht (htest.1 h))]
    refine ⟨hlow, ?_⟩
    rw [sub_add_cancel]; exact lt_of_not_ge ht

/-- What `f32Nearest` puts in the pattern: the sign asked for, above the magnitude bits. -/
theorem f32Nearest_sign_mag (neg : Bool) (n d : ℕ) :
    f32Sign (f32Nearest neg n d) = neg ∧ f32Mag (f32Nearest neg n d) = f32NearestMag n d := by
  have hle : f32NearestMag n d ≤ 0x7F800000 := by
    unfold f32NearestMag
    split
    · omega
    · exact Nat.min_le_right _ _
  have hN : (f32Nearest neg n d).toNat = (if neg then 2 ^ 31 else 0) + f32NearestMag n d := by
    unfold f32Nearest
    rw [BitVec.toNat_ofNat, Nat.mod_eq_of_lt]
    split <;> omega
  have hM : f32Mag (f32Nearest neg n d) < 2 ^ 31 := by unfold f32Mag; exact BitVec.isLt _
  have hs := f32_toNat_eq_sign_mag (f32Nearest neg n d)
  rw [hN] at hs
  cases neg <;> cases h : f32Sign (f32Nearest _ n d) <;> rw [h] at hs <;> simp at hs ⊢ <;> omega

/-- What `f32NearestMag` rounds: n / d counted in units of 2^P, to an integer m nearest to it, even when two are as near. -/
theorem f32NearestMag_rounds {n d : ℕ} (hn : 0 < n) (hd : 0 < d) :
    ∃ (P : ℤ) (m : ℕ), P = max (-149) (floorLog2Ratio n d - 23) ∧
      |(n : ℚ) / d / 2 ^ P - m| ≤ 1 / 2 ∧ (|(n : ℚ) / d / 2 ^ P - m| = 1 / 2 → m % 2 = 0) ∧
      f32NearestMag n d = min (if m < 2 ^ 23 then m else (P + 150).toNat * 2 ^ 23 + (m - 2 ^ 23)) 0x7F800000 := by
  have key : ∀ P : ℤ, ∀ m : ℕ,
      m = (if 0 ≤ P then roundHalfEven n (d <<< P.toNat) else roundHalfEven (n <<< (-P).toNat) d) →
      |(n : ℚ) / d / 2 ^ P - m| ≤ 1 / 2 ∧ (|(n : ℚ) / d / 2 ^ P - m| = 1 / 2 → m % 2 = 0) := by
    rintro P m rfl
    by_cases h : 0 ≤ P
    · obtain ⟨k, rfl⟩ := Int.eq_ofNat_of_zero_le h
      have hk := roundHalfEven_nearest n (den := d <<< k) (by rw [Nat.shiftLeft_eq]; positivity)
      have hv : (n : ℚ) / (d <<< k : ℕ) = (n : ℚ) / d / 2 ^ (k : ℤ) := by
        rw [Nat.shiftLeft_eq, zpow_natCast, div_div]; push_cast; rfl
      rw [if_pos h, Int.toNat_natCast, ← hv]
      exact hk
    · obtain ⟨k, hk⟩ := Int.eq_ofNat_of_zero_le (by omega : 0 ≤ -P)
      have hr := roundHalfEven_nearest (n <<< k) hd
      have hv : ((n <<< k : ℕ) : ℚ) / d = (n : ℚ) / d / 2 ^ P := by
        rw [Nat.shiftLeft_eq, (by omega : P = -(k : ℤ)), zpow_neg, zpow_natCast, div_inv_eq_mul, div_mul_eq_mul_div]
        push_cast; rfl
      rw [if_neg h, hk, Int.toNat_natCast, ← hv]
      exact hr
  obtain ⟨h1, h2⟩ := key _ _ rfl
  exact ⟨_, _, rfl, h1, h2, by unfold f32NearestMag; rw [if_neg hn.ne']⟩

end Sys2Proof.Laws
end

