-- ==== Sys2Proof/Laws/Operands.lean ====
section
/-! SUPPORT. What the operand computations of DEC and ENC come to, in integers. -/

namespace Sys2Proof.Laws

open Sys2Proof.Machine

theorem joinBytes_toNat (b0 b1 : Byte) : (joinBytes b0 b1).toNat = b0.toNat * 256 + b1.toNat := by
  unfold joinBytes
  rw [BitVec.toNat_append, ← Nat.shiftLeft_add_eq_or_of_lt b1.isLt, Nat.shiftLeft_eq]

theorem intField_toNat (r : Half) : (intField r).toNat = r.toNat / 16 := by
  unfold intField
  have := r.isLt
  rw [BitVec.extractLsb'_toNat, Nat.shiftRight_eq_div_pow]
  omega

/-- k is the signed reading of bits 15..4. -/
theorem regK_eq_intField_toInt (r : Half) : regK r = (intField r).toInt := by
  unfold regK s16
  rw [BitVec.toInt_signExtend_of_le (by decide)]

/-- k in terms of the pattern's own number. -/
theorem regK_eq (r : Half) : regK r = if r.toNat < 2 ^ 15 then (r.toNat / 16 : ℤ) else (r.toNat / 16 : ℤ) - 4096 := by
  have := r.isLt
  rw [regK_eq_intField_toInt, BitVec.toInt_eq_toNat_cond, intField_toNat]
  split <;> split <;> push_cast <;> omega

theorem regK_range (r : Half) : -2048 ≤ regK r ∧ regK r ≤ 2047 := by
  have := r.isLt
  rw [regK_eq]; split <;> omega

/-- DEC's k is the one its assembled register value holds. -/
theorem decK_eq_regK (b0 b1 : Byte) : decK b0 b1 = regK (joinBytes b0 b1) := by
  have hj := joinBytes_toNat b0 b1
  have h0 := b0.isLt
  have h1 := b1.isLt
  have hf := intField_toNat (joinBytes b0 b1)
  have hor : ∀ n < 4096, n ||| 0xF000 = n + 0xF000 := by
    intro n hn
    have := Nat.shiftLeft_add_eq_or_of_lt (a := 15) (b := n) (i := 12) (by omega)
    rw [Nat.or_comm] at this
    simpa [Nat.add_comm] using this.symm
  rw [regK_eq]
  unfold decK decSh16 s16
  rw [BitVec.toInt_eq_toNat_cond, BitVec.getLsbD, Nat.testBit_eq_decide_div_mod_eq]
  by_cases hs : b0.toNat / 2 ^ 7 % 2 = 1
  · have hn : ((intField (joinBytes b0 b1)).setWidth 16 ||| ext16).toNat = (joinBytes b0 b1).toNat / 16 + 0xF000 := by
      rw [BitVec.toNat_or, BitVec.toNat_setWidth, hf, Nat.mod_eq_of_lt (by omega)]
      exact hor _ (by omega)
    simp only [hs, decide_true, if_true, hn]
    split <;> split <;> omega
  · have hn : ((intField (joinBytes b0 b1)).setWidth 16).toNat = (joinBytes b0 b1).toNat / 16 := by
      rw [BitVec.toNat_setWidth, hf, Nat.mod_eq_of_lt (by omega)]
    simp only [hs, decide_false, Bool.false_eq_true, if_false, hn]
    split <;> split <;> omega

/-- The range check, on the count of units of 2^-149. -/
theorem encInRange_iff_units (b : Word) :
    encInRange b = true ↔ f32Units b ≤ (if f32Sign b then 40 else 128) * 2 ^ 149 := by
  have hp := f32Units_le_iff_mag_le b 0x43000000#32
  have hn := f32Units_le_iff_mag_le b 0x42200000#32
  rw [show f32Units 0x43000000#32 = 128 * 2 ^ 149 by decide, show f32Mag 0x43000000#32 = posLimit by decide] at hp
  rw [show f32Units 0x42200000#32 = 40 * 2 ^ 149 by decide, show f32Mag 0x42200000#32 = negLimit by decide] at hn
  unfold encInRange
  cases h : f32Sign b
  · simpa using hp.symm
  · simpa using hn.symm

/-- An input in range is finite, with a scale small enough for ENC's right shift. -/
theorem f32Exp_le_of_encInRange {b : Word} (h : encInRange b = true) : f32Exp b ≤ 134 := by
  have hf := f32Mag_eq_fields b
  have hle : f32Mag b ≤ posLimit := by
    unfold encInRange at h
    simp only [Bool.or_eq_true, Bool.and_eq_true, Bool.not_eq_true', decide_eq_true_eq] at h
    unfold posLimit negLimit at *
    omega
  unfold posLimit at hle
  omega

/-- ENC's `mag` is the whole number of 2^-4 steps in |x|. -/
theorem encMag_eq_units_div {b : Word} (h : encInRange b = true) : encMag b = f32Units b / 2 ^ 145 := by
  have hE := f32Exp_le_of_encInRange h
  have hP : f32Scale b + 4 ≤ -12 ∧ -149 ≤ f32Scale b := by unfold f32Scale; split <;> omega
  unfold encMag f32Units
  rw [if_neg (by omega), Nat.shiftRight_eq_div_pow]
  obtain ⟨n, hn⟩ : ∃ n : ℕ, f32Scale b = -149 + n := ⟨(f32Scale b + 149).toNat, by omega⟩
  rw [show (-(f32Scale b + 4)).toNat = 145 - n by omega, show (f32Scale b + 149).toNat = n by omega,
    show (2 : ℕ) ^ 145 = 2 ^ (145 - n) * 2 ^ n by rw [← pow_add]; congr 1; omega,
    Nat.mul_div_mul_right _ _ (by positivity)]

/-- ENC's `neg` is x < 0. -/
theorem encNeg_eq_units (b : Word) : encNeg b = (f32Sign b && decide (f32Units b ≠ 0)) := by
  have := f32Units_eq_zero_iff b
  unfold encNeg
  by_cases h : f32Mag b = 0 <;> simp_all

/-- ENC's `k` is in [-640, 2048]. -/
theorem encK_range {b : Word} (h : encInRange b = true) :
    (encNeg b = true → -640 ≤ encK b ∧ encK b ≤ 0) ∧ (encNeg b = false → 0 ≤ encK b ∧ encK b ≤ 2048) := by
  have hm := encMag_eq_units_div h
  have hu := (encInRange_iff_units b).1 h
  have hn := encNeg_eq_units b
  have h0 := f32Units_eq_zero_iff b
  unfold encK
  cases hneg : encNeg b
  · refine ⟨by simp, fun _ => ?_⟩
    have : f32Units b ≤ 128 * 2 ^ 149 := by
      refine le_trans hu ?_
      split <;> norm_num
    simp only [Bool.false_eq_true, if_false]; omega
  · rw [hneg] at hn
    have hs : f32Sign b = true := by
      cases hs : f32Sign b
      · simp [hs] at hn
      · rfl
    rw [hs, if_pos rfl] at hu
    refine ⟨fun _ => ?_, by simp⟩
    simp only [if_true]; omega

end Sys2Proof.Laws
end

