-- ==== Sys2Proof/Laws/State.lean ====
section
/-! SUPPORT. The fields of State after each named update, so that no proof unfolds a record update. -/

namespace Sys2Proof.Laws

open Sys2Proof.Machine

@[simp] theorem presenting_inp (s : State) (i : In) : (s.presenting i).inp = i := rfl
@[simp] theorem presenting_observed (s : State) (i : In) : (s.presenting i).observed = s.observed := rfl
@[simp] theorem observing_inp (s : State) (o : Out) : (s.observing o).inp = s.inp := rfl
@[simp] theorem observing_observed (s : State) (o : Out) : (s.observing o).observed = s.observed ++ [o] := rfl
@[simp] theorem presenting_presenting (s : State) (i j : In) : (s.presenting i).presenting j = s.presenting j := rfl
@[simp] theorem observing_presenting (s : State) (o : Out) (i : In) :
    (s.observing o).presenting i = (s.presenting i).observing o := rfl
@[simp] theorem presenting_self (s : State) : s.presenting s.inp = s := rfl

/-- Two observations of the same state are the same state only if they are the same record. -/
@[simp] theorem observing_inj (s : State) (o o' : Out) : s.observing o = s.observing o' ↔ o = o' :=
  ⟨fun h => by simpa using congrArg State.observed h, fun h => h ▸ rfl⟩

@[simp] theorem selectedOp_eq (s : State) : s.selectedOp = s.inp.op := rfl

@[simp] theorem undriven_status : Out.undriven.status = 0#2 := rfl
@[simp] theorem undriven_fout : Out.undriven.fout = 0#32 := rfl
@[simp] theorem undriven_rout : Out.undriven.rout = 0#16 := rfl
@[simp] theorem undriven_bout0 : Out.undriven.bout0 = 0#8 := rfl
@[simp] theorem undriven_bout1 : Out.undriven.bout1 = 0#8 := rfl

end Sys2Proof.Laws
end

