-- ==== Sys2Proof/Laws/Ops.lean ====
section
/-! SUPPORT. What each meaning and the step can do: one lemma each, which later proofs cite instead of unfolding. -/

namespace Sys2Proof.Laws

open Sys2Proof.Machine

theorem exec_dec (s : State) : exec .dec s = .next (s.observing (decOut Config.floatSentinel s.inp)) := rfl
theorem exec_enc (s : State) : exec .enc s = .next (s.observing (encOut s.inp)) := rfl
theorem exec_join (s : State) : exec .join s = .next (s.observing (joinOut s.inp)) := rfl
theorem exec_split (s : State) : exec .split s = .next (s.observing (splitOut s.inp)) := rfl

theorem decOut_present (fs : Word) {i : In} (h : i.present = true) :
    decOut fs i = ⟨0b00#2, f32OfK (decK i.bin0 i.bin1), 0#16, 0#8, 0#8⟩ := by
  unfold decOut; rw [if_pos h]; rfl

theorem decOut_absent (fs : Word) {i : In} (h : i.present = false) :
    decOut fs i = ⟨0b01#2, fs, 0#16, 0#8, 0#8⟩ := by
  unfold decOut; rw [if_neg (by simp [h])]; rfl

theorem encOut_inRange {i : In} (h : encInRange i.fin = true) :
    encOut i = ⟨0b00#2, 0#32, encR i.fin, 0#8, 0#8⟩ := by
  unfold encOut; rw [if_pos h]; rfl

theorem encOut_outOfRange {i : In} (h : encInRange i.fin = false) :
    encOut i = ⟨0b10#2, 0#32, 0x00FF#16, 0#8, 0#8⟩ := by
  unfold encOut; rw [if_neg (by simp [h])]; rfl

theorem joinOut_eq (i : In) : joinOut i = ⟨0b00#2, 0#32, joinBytes i.bin0 i.bin1, 0#8, 0#8⟩ := rfl

theorem splitOut_eq (i : In) : splitOut i = ⟨0b00#2, 0#32, 0#16, highByte i.rin, lowByte i.rin⟩ := rfl

/-- The output ports follow the inputs presented, before any step. -/
@[simp] theorem presenting_out (s : State) (i : In) : (s.presenting i).out = codec Config.floatSentinel i := rfl

/-- What the host observes does not change the output ports. -/
@[simp] theorem observing_out (s : State) (o : Out) : (s.observing o).out = s.out := rfl

/-- The step, whole: the host observes the outputs, and nothing else changes. -/
theorem step_eq_observing_out (s : State) : step s = .next (s.observing s.out) := by
  unfold step State.out codec
  rw [selectedOp_eq]
  cases decodeOp s.inp.op <;> rfl

/-- Every operation completes, and the outputs it lets the host observe are a function of the inputs alone. -/
theorem exec_eq_observing (i : Instr) (s : State) :
    exec i s = .next (s.observing (codec Config.floatSentinel { s.inp with op := encodeOp i })) := by
  cases i <;> rfl

end Sys2Proof.Laws
end

