-- ==== Sys2Proof/Laws/PerInstr.lean ====
section
/-! SUPPORT. The operation select, one lemma an operation. -/

namespace Sys2Proof.Laws.OpSelect

/-- A well-formed operation's `op` value decodes to it, and no other value does (spec/30_encoding.md R38, R40). -/
def Statement (i : Instr) : Prop :=
  i.wellFormed = true ∧ decodeOp (encodeOp i) = i ∧ ∀ op : Pair, decodeOp op = i → op = encodeOp i

theorem dec : Statement .dec := ⟨rfl, by decide, by decide⟩
theorem enc : Statement .enc := ⟨rfl, by decide, by decide⟩
theorem join : Statement .join := ⟨rfl, by decide, by decide⟩
theorem split : Statement .split := ⟨rfl, by decide, by decide⟩

end Sys2Proof.Laws.OpSelect
end

