-- ==== Sys2Proof/Tests/Slice0.lean ====
section
/-! SUPPORT. The model's own tests and the witnesses of the statements' hypotheses. Every expected value is the spec's:
spec/95_test_vectors.md, the rules' own examples, or hand calculation from the rule named. -/

namespace Sys2Proof.Tests

open Sys2Proof.Machine

/-- A state that presents the inputs `i`, after a record of all 1s so that an output left over shows. -/
def showing (i : In) : State := ⟨i, [⟨0b11#2, 0xFFFFFFFF#32, 0xFFFF#16, 0xFF#8, 0xFF#8⟩]⟩

/-- The ports of `DEC b0, b1`. -/
def decAt (b0 b1 : Byte) : State := showing ⟨0b00#2, true, b0, b1, 0#32, 0#16⟩

/-- The ports of `DEC absent`, with bytes that must not matter. -/
def decAbsent : State := showing ⟨0b00#2, false, 0x12#8, 0x34#8, 0#32, 0#16⟩

/-- The ports of `ENC f`. -/
def encAt (f : Word) : State := showing ⟨0b01#2, false, 0#8, 0#8, f, 0#16⟩

/-- The ports of `JOIN b0, b1`. -/
def joinAt (b0 b1 : Byte) : State := showing ⟨0b10#2, false, b0, b1, 0#32, 0#16⟩

/-- The ports of `SPLIT r`. -/
def splitAt (r : Half) : State := showing ⟨0b11#2, false, 0#8, 0#8, 0#32, r⟩

/-- The outputs that a step which goes on lets the host observe: the last record. -/
def outOf : Host.Outcome State Fault Refusal → Option Out
  | .next s => s.observed.getLast?
  | .fault _ => none
  | .refused _ => none

/-! ## Decoding: R38's table, bit by bit -/

theorem test_decode_dec : decodeTableWord 8 0b00000000 = some .dec := by decide
theorem test_decode_enc : decodeTableWord 8 0b00000001 = some .enc := by decide
theorem test_decode_join : decodeTableWord 8 0b00000010 = some .join := by decide
theorem test_decode_split : decodeTableWord 8 0b00000011 = some .split := by decide
theorem test_decode_two_bits : decodeTableWord 2 0b11 = some .split := by decide
theorem test_placed_word_decodes : (State.reset.withFetchWord 8 0b10).selectedOp = 0b10#2 := by decide

/-! ## WellFormed: each check of a host program refuses an ill-formed one; an operation has nothing to check (R38) -/

theorem test_wf_instr : ([Instr.dec, .enc, .join, .split].all Instr.wellFormed) = true := by decide
theorem test_wf_accepts :
    Program.wellFormed (expandAll [.thresh 0 (.bits 0xC1A00000#32), .rtrip 1 (.bits 0#32),
      .plain 2 (.dec (.bout0 (.line 0)) (.bout1 (.line 0)))]) = true := by decide
theorem test_wf_refuses_label_used_twice :
    Program.wellFormed [⟨.line 0, .decAbsent⟩, ⟨.line 0, .decAbsent⟩] = false := by decide
theorem test_wf_refuses_reference_to_later_line :
    Program.wellFormed [⟨.line 0, .split (.rout (.line 1))⟩, ⟨.line 1, .enc (.bits 0#32)⟩] = false := by decide
theorem test_wf_refuses_reference_to_own_line :
    Program.wellFormed [⟨.line 0, .enc (.fout (.line 0))⟩] = false := by decide

/-! ## One step of each operation (spec/95_test_vectors.md sections 2.1, 2.2, 2.4, 2.5) -/

theorem test_dec_negative : outOf (step (decAt 0xC9#8 0x00#8)) = some ⟨0b00#2, 0xC25C0000#32, 0#16, 0#8, 0#8⟩ := by decide
theorem test_dec_absent : outOf (step decAbsent) = some ⟨0b01#2, Config.floatSentinel, 0#16, 0#8, 0#8⟩ := by rfl
theorem test_enc_discontinuity :
    outOf (step (encAt 0xBCF5C28F#32)) = some ⟨0b00#2, 0#32, 0x8000#16, 0#8, 0#8⟩ := by decide
theorem test_enc_just_below_range :
    outOf (step (encAt 0xC2200001#32)) = some ⟨0b10#2, 0#32, 0x00FF#16, 0#8, 0#8⟩ := by decide
theorem test_join_order : outOf (step (joinAt 0x60#8 0xA0#8)) = some ⟨0b00#2, 0#32, 0x60A0#16, 0#8, 0#8⟩ := by decide
/-- The outputs follow the inputs with no step between (R27, R86): ENC of +0.0 placed on the ports at reset. -/
theorem test_outputs_follow_inputs : (State.reset.withFetchWord 8 1).out = ⟨0b00#2, 0#32, 0#16, 0#8, 0#8⟩ := by decide
theorem test_split_order : outOf (step (splitAt 0xEC00#16)) = some ⟨0b00#2, 0#32, 0#16, 0xEC#8, 0x00#8⟩ := by decide

/-! ## Host programs (R49, R50; spec/95_test_vectors.md section 3, programs 1 and 3) -/

theorem test_thresh_minus_20 :
    runProgram State.reset (expandAll [.thresh 0 (.decimal ⟨true, 200, 1⟩)]) =
      some [⟨0b00#2, 0#32, 0xEC00#16, 0#8, 0#8⟩, ⟨0b00#2, 0#32, 0#16, 0xEC#8, 0x00#8⟩] := by decide
theorem test_sentinel_decodes_when_status_is_ignored :
    (runProgram State.reset (expandAll [.rtrip 0 (.bits 0xC3000000#32)])).map (List.map Out.status) =
      some [0b10#2, 0b00#2, 0b00#2] := by decide
theorem test_decimal_25_3 : decimalToF32 ⟨false, 253, 1⟩ = 0x41CA6666#32 := by decide
theorem test_decimal_minus_39_99 : decimalToF32 ⟨true, 3999, 2⟩ = 0xC21FF5C3#32 := by decide

/-! ## Witnesses: concrete states and operands that meet the hypotheses of the statements -/

theorem witness_low_end : f32val (encAt 0xC2200000#32).inp.fin = some (-40) ∧ (-40 : ℚ) ≤ -40 ∧ (-40 : ℚ) ≤ 128 ∧
    (-40 : ℚ) < 0 ∧ (-40 : ℚ) ≤ -1 / 16 := by decide +kernel
theorem witness_high_end : f32val (encAt 0x43000000#32).inp.fin = some 128 ∧ (-40 : ℚ) ≤ 128 ∧ (128 : ℚ) ≤ 128 ∧
    (0 : ℚ) ≤ 128 := by decide +kernel
theorem witness_below_high_end : f32val (encAt 0x42FFE000#32).inp.fin = some (2047 / 16) ∧ (-40 : ℚ) ≤ 2047 / 16 ∧
    (0 : ℚ) ≤ 2047 / 16 ∧ (2047 / 16 : ℚ) < 128 := by decide +kernel
theorem witness_last_negative_step : f32val (encAt 0xBD800000#32).inp.fin = some (-1 / 16) ∧ (-40 : ℚ) ≤ -1 / 16 ∧
    (-1 / 16 : ℚ) ≤ -1 / 16 ∧ (-1 / 16 : ℚ) < 0 := by decide +kernel
theorem witness_discontinuity : f32val (encAt 0xBD000000#32).inp.fin = some (-1 / 32) ∧ (-40 : ℚ) ≤ -1 / 32 ∧
    (-1 / 16 : ℚ) < -1 / 32 ∧ (-1 / 32 : ℚ) < 0 := by decide +kernel
theorem witness_zeros : f32val 0x00000000#32 = some 0 ∧ f32val 0x80000000#32 = some 0 ∧
    f32Sign 0x80000000#32 = true ∧ f32Sign 0x00000000#32 = false := by decide +kernel
theorem witness_not_in_range_nan :
    ¬∃ x : ℚ, f32val (encAt 0x7FC00000#32).inp.fin = some x ∧ -40 ≤ x ∧ x ≤ 128 := by
  rintro ⟨x, hx, -⟩
  exact absurd hx (by rw [show f32val (encAt 0x7FC00000#32).inp.fin = none by decide +kernel]; simp)
theorem witness_grid_point : f32val (encAt 0xC2200000#32).inp.fin = some (((-640 : ℤ) : ℚ) * (1 / 16)) := by
  decide +kernel

theorem witness_ScalingInRangeIsExact : f32val 0xC2200000#32 = some (-40) ∧ (-40 : ℚ) ≤ -40 ∧ (-40 : ℚ) ≤ 128 := by
  decide +kernel
theorem witness_F32OfKIsTheOnlyPattern : (-2048 : ℤ) ≤ 2048 ∧ (2048 : ℤ) ≤ 2048 ∧ (2048 : ℤ) ≠ 0 ∧
    f32val 0x43000000#32 = some (((2048 : ℤ) : ℚ) / 16) := by decide +kernel
theorem witness_OperationReadsOnlyItsPorts :
    (decAt 1#8 2#8).inp.present = (showing ⟨0b00#2, true, 1#8, 2#8, 7#32, 7#16⟩).inp.present ∧
    (decAt 1#8 2#8).inp.bin0 = (showing ⟨0b00#2, true, 1#8, 2#8, 7#32, 7#16⟩).inp.bin0 ∧
    (decAt 1#8 2#8).inp.bin1 = (showing ⟨0b00#2, true, 1#8, 2#8, 7#32, 7#16⟩).inp.bin1 ∧
    (encAt 5#32).inp.fin = (showing ⟨0b01#2, true, 1#8, 2#8, 5#32, 7#16⟩).inp.fin ∧
    (splitAt 5#16).inp.rin = (showing ⟨0b11#2, true, 1#8, 2#8, 5#32, 5#16⟩).inp.rin := by decide
theorem witness_OutputsDependOnInputsAlone :
    (encAt 0#32).inp = (State.mk (encAt 0#32).inp []).inp ∧ encAt 0#32 ≠ ⟨(encAt 0#32).inp, []⟩ := by
  decide
theorem witness_UndrivenOutputsAreZero :
    (∃ t, exec .dec (decAt 0#8 0#8) = .next t) ∧ (∃ t, exec .enc (encAt 0#32) = .next t) ∧
    (∃ t, exec .join (joinAt 0#8 0#8) = .next t) ∧ ∃ t, exec .split (splitAt 0#16) = .next t :=
  ⟨⟨_, rfl⟩, ⟨_, rfl⟩, ⟨_, rfl⟩, ⟨_, rfl⟩⟩
theorem witness_OnlyDecReadsPresent : Instr.enc ≠ .dec ∧ Instr.join ≠ .dec ∧ Instr.split ≠ .dec := by decide
theorem witness_OpPortSelectsOperation : (decAt 0#8 0#8).inp.op = 0b00#2 ∧ (encAt 0#32).inp.op = 0b01#2 ∧
    (joinAt 0#8 0#8).inp.op = 0b10#2 ∧ (splitAt 0#16).inp.op = 0b11#2 := by decide
theorem witness_DecodeEncodeAgree : Instr.split.wellFormed = true := by decide
theorem witness_StepRunsDecodedOperation :
    Instr.enc.wellFormed = true ∧ decodeOp (encAt 0#32).inp.op = .enc := by decide
theorem witness_PlacedWordRunsNext : decodeTableWord 8 3 = some .split := by decide
theorem witness_RegisterValuesDenoted : regValue 0x8000#16 ∈ Set.range regValue := ⟨_, rfl⟩
theorem witness_MagnitudeFollowsLowBits :
    f32Sign 0xC2200000#32 = f32Sign 0xBD800000#32 ∧ f32val 0xC2200000#32 = some (-40) ∧
    f32val 0xBD800000#32 = some (-1 / 16) ∧ f32Sign 0x43000000#32 = f32Sign 0x7F800000#32 ∧
    f32val 0x43000000#32 = some 128 ∧ f32IsInf 0x7F800000#32 = true := by decide +kernel
theorem witness_F32OfKIsExact : (-2048 : ℤ) ≤ -2048 ∧ (-2048 : ℤ) ≤ 2047 ∧ (-2048 : ℤ) ≠ 0 := by decide
/-- A line 0 that drove 0xEC00, referred to and beside literals. -/
theorem witness_LineFormsPresentTheirPorts :
    let tr : Trace := [(.line 0, ⟨0b00#2, 0#32, 0xEC00#16, 0#8, 0#8⟩)]
    tr.lookup (.line 0) = some ⟨0b00#2, 0#32, 0xEC00#16, 0#8, 0#8⟩ ∧ evalReg tr (.rout (.line 0)) = some 0xEC00#16 ∧
    evalByte tr (.lit 0x12#8) = some 0x12#8 ∧ evalByte tr (.bout1 (.line 0)) = some 0x00#8 ∧
    evalFloat tr (.decimal ⟨true, 200, 1⟩) = some 0xC1A00000#32 := by decide
theorem witness_PseudoOperationsChain : evalFloat [] (.decimal ⟨false, 253, 1⟩) = some 0x41CA6666#32 := by decide
/-- A literal half way between two patterns, and the greatest integer below the bound. -/
theorem witness_DecimalLiteralIsNearest :
    (16777217 : ℚ) = (if false then -1 else 1) * ((16777217 : ℕ) : ℚ) / 10 ^ 0 ∧ |(16777217 : ℚ)| < 2 ^ 128 - 2 ^ 103 ∧
    f32val (decimalToF32 ⟨false, 16777217, 0⟩) = some 16777216 ∧ f32val 0x4B800001#32 = some 16777218 ∧
    |(16777217 : ℚ) - 16777218| = |(16777217 : ℚ) - 16777216| ∧
    |((2 ^ 128 - 2 ^ 103 - 1 : ℕ) : ℚ)| < 2 ^ 128 - 2 ^ 103 := by
  decide +kernel
theorem witness_DecimalLiteralEdges : (2 ^ 128 - 2 ^ 103 : ℚ) ≤ ((2 ^ 128 - 2 ^ 103 : ℕ) : ℚ) / 10 ^ 0 := by
  decide +kernel
theorem witness_DecResult :
    (decAt 0x00#8 0x00#8).inp.present = true ∧ decAbsent.inp.present = false ∧
    (decAt 0x80#8 0x00#8).inp.bin0 = 0x80#8 ∧ (decAt 0x7F#8 0xF0#8).inp.bin1 = 0xF0#8 ∧
    (decAt 0xC9#8 0x00#8).inp.bin0 = 0xC9#8 := by decide
theorem witness_DecIgnoresLowBits :
    (decAt 0x7F#8 0xFF#8).inp.present = true ∧ (decAt 0x7F#8 0xFF#8).inp.bin0 = 0x7F#8 ∧
    (decAt 0x7F#8 0xFF#8).inp.bin1 = 0xFF#8 ∧ (decAt 0xFF#8 0xFF#8).inp.present = true ∧
    (decAt 0xFF#8 0xFF#8).inp.bin0 = 0xFF#8 ∧ (decAt 0xFF#8 0xFF#8).inp.bin1 = 0xFF#8 := by decide
theorem witness_DecAlwaysSucceeds : (decAt 0xC9#8 0x00#8).inp.present = true ∧ (decAt 0xC9#8 0x00#8).inp.bin0 = 0xC9#8 ∧
    (decAt 0xC9#8 0x00#8).inp.bin1 = 0x00#8 := by decide
theorem witness_DecMultipliesExactly : (decAt 0x80#8 0x00#8).inp.present = true := by decide
theorem witness_DecAssemblesAsJoin : (decAt 0x12#8 0x34#8).inp.present = true := by decide
theorem witness_EncCornerCases : (encAt 0x43000000#32).inp.fin = 0x43000000#32 ∧
    (encAt 0x7F800001#32).inp.fin ∈ [0x43001000#32, 0xC2204000#32, 0x43000001#32, 0xC2200001#32, 0x7F800000#32, 0xFF800000#32,
      0x7FC00000#32, 0xFFC00000#32, 0x7F800001#32] := by decide
theorem witness_EncRangeCheck : f32val 0x43000000#32 = some 128 ∧ f32Sign 0x43000000#32 = false ∧
    f32val 0xC2200000#32 = some (-40) ∧ f32Sign 0xC2200000#32 = true ∧ f32IsNaN 0x7F800001#32 = true ∧
    f32IsInf 0xFF800000#32 = true ∧ encInRange (encAt 0x43000001#32).inp.fin = false := by decide +kernel
theorem witness_EncLeftJustifies : encK 0x42FFE000#32 = 2047 ∧ encK 0x00000000#32 = 0 ∧ encK 0xC2200000#32 = -640 ∧
    encK 0xBD800000#32 = -1 ∧ encK 0x43000000#32 = 2048 := by decide
theorem witness_EncForcesSignBit_dec : (decAt 0x80#8 0x00#8).inp.present = true ∧ (decAt 0x80#8 0x00#8).inp.bin0 = 0x80#8 ∧
    (decAt 0x00#8 0x00#8).inp.bin0 = 0x00#8 ∧ (decAt 0x00#8 0x00#8).inp.bin1 = 0x00#8 := by decide
theorem witness_EncNegativeZeroAndSubnormals : (encAt 0x80000000#32).inp.fin = 0x80000000#32 ∧
    0x80000001#32 ≤ (encAt 0x80000001#32).inp.fin ∧ (encAt 0x807FFFFF#32).inp.fin ≤ 0x807FFFFF#32 := by decide
theorem witness_EncLowBitsAreZero : ∃ o, Observes .enc (encAt 0x41CA6666#32) o ∧ o.status = 0b00#2 :=
  ⟨_, rfl, by decide⟩
/-- The chain on -40.0, each state presenting what the one before let the host observe. -/
theorem witness_RoundTrip :
    Observes .enc (encAt 0xC2200000#32) ⟨0b00#2, 0#32, 0xD800#16, 0#8, 0#8⟩ ∧ (splitAt 0xD800#16).inp.rin = 0xD800#16 ∧
    Observes .split (splitAt 0xD800#16) ⟨0b00#2, 0#32, 0#16, 0xD8#8, 0x00#8⟩ ∧
    (decAt 0xD8#8 0x00#8).inp.present = true ∧ (decAt 0xD8#8 0x00#8).inp.bin0 = 0xD8#8 ∧
    (decAt 0xD8#8 0x00#8).inp.bin1 = 0x00#8 :=
  ⟨rfl, rfl, rfl, rfl, rfl, rfl⟩
theorem witness_ReEncode_next : Observes .dec (decAt 0xD8#8 0x00#8) ⟨0b00#2, 0xC2200000#32, 0#16, 0#8, 0#8⟩ ∧
    (encAt 0xC2200000#32).inp.fin = 0xC2200000#32 := ⟨rfl, rfl⟩
theorem witness_JoinSplitInverse :
    Observes .split (splitAt 0x60A0#16) ⟨0b00#2, 0#32, 0#16, 0x60#8, 0xA0#8⟩ ∧ (joinAt 0x60#8 0xA0#8).inp.bin0 = 0x60#8 ∧
    (joinAt 0x60#8 0xA0#8).inp.bin1 = 0xA0#8 ∧ Observes .join (joinAt 0x60#8 0xA0#8) ⟨0b00#2, 0#32, 0x60A0#16, 0#8, 0#8⟩ ∧
    (splitAt 0x60A0#16).inp.rin = 0x60A0#16 := ⟨rfl, rfl, rfl, rfl, rfl⟩
theorem witness_ReEncode_in_range : (decAt 0xD8#8 0x00#8).inp.present = true ∧
    f32val (f32OfK (decK 0xD8#8 0x00#8)) = some (-40) ∧ (-40 : ℚ) ≤ -40 ∧ (-40 : ℚ) ≤ 128 := by decide +kernel
theorem witness_ReEncode_below_range : (decAt 0xD7#8 0xF0#8).inp.present = true ∧
    f32val (f32OfK (decK 0xD7#8 0xF0#8)) = some (-641 / 16) ∧ ¬((-40 : ℚ) ≤ -641 / 16 ∧ (-641 / 16 : ℚ) ≤ 128) := by
  decide +kernel
theorem witness_ReEncode_minus_one_step : (encAt 0xBD800000#32).inp.fin = 0xBD800000#32 := by decide
theorem witness_JoinResult : (joinAt 0x00#8 0xFF#8).inp.bin0 = 0x00#8 ∧ (joinAt 0x00#8 0xFF#8).inp.bin1 = 0xFF#8 ∧
    (joinAt 0xFF#8 0xFF#8).inp.bin0 = 0xFF#8 ∧ (joinAt 0xFF#8 0xFF#8).inp.bin1 = 0xFF#8 ∧
    (joinAt 0x60#8 0xA0#8).inp.bin0 = 0x60#8 ∧ (joinAt 0x60#8 0xA0#8).inp.bin1 = 0xA0#8 := by decide
theorem witness_SplitResult : (splitAt 0x00FF#16).inp.rin = 0x00FF#16 ∧ (splitAt 0xEC00#16).inp.rin = 0xEC00#16 := by
  decide
theorem witness_WhenEachStatus : (decAt 0#8 0#8).inp.present = true ∧ decAbsent.inp.present = false := by decide
theorem witness_NeverBusError : ∃ t, step (joinAt 0x12#8 0x34#8) = .next t := ⟨_, rfl⟩
theorem witness_ErrorsDriveSentinels :
    (∃ o, Observes .dec decAbsent o ∧ o.status = 0b01#2) ∧
    ∃ o, Observes .enc (encAt 0x43000001#32) o ∧ o.status = 0b10#2 :=
  ⟨⟨_, rfl, by decide⟩, ⟨_, rfl, by decide⟩⟩
theorem witness_SentinelsAgainstResults :
    (∃ o, Observes .enc (encAt 0x42FFE000#32) o ∧ o.status = 0b00#2) ∧
    (∃ o, Observes .dec (decAt 0x7F#8 0xF0#8) o ∧ o.status = 0b00#2) ∧
    (joinAt 0x00#8 0xFF#8).inp.bin0 = 0x00#8 ∧ (joinAt 0x00#8 0xFF#8).inp.bin1 = 0xFF#8 :=
  ⟨⟨_, rfl, by decide⟩, ⟨_, rfl, by decide⟩, by decide, by decide⟩
theorem witness_ErrorLeavesNothingBehind : (encAt 0xC3000000#32).out.status ≠ 0b00#2 := by decide
/-- A state after an ENC that was out of range: its ports and its record carry an error and the sentinel. -/
theorem witness_LegalOutputsInvariant :
    (State.mk (encAt 0x43000001#32).inp [⟨0b10#2, 0#32, 0x00FF#16, 0#8, 0#8⟩]).Inv ∧
    ∃ t, step ((encAt 0x43000001#32).presenting ⟨0b00#2, true, 0x80#8, 0x0F#8, 0#32, 0#16⟩) = .next t := by
  have h : (⟨0b10#2, 0#32, 0x00FF#16, 0#8, 0#8⟩ : Out).Legal := by
    simp [Out.Legal, statusBusError, statusInvalidInput, statusOutOfRange, statusOk, u16Sentinel]
  refine ⟨⟨?_, by simpa using h⟩, ⟨_, rfl⟩⟩
  rw [show (State.mk (encAt 0x43000001#32).inp [⟨0b10#2, 0#32, 0x00FF#16, 0#8, 0#8⟩]).out =
    ⟨0b10#2, 0#32, 0x00FF#16, 0#8, 0#8⟩ by decide]
  exact h
theorem witness_HostProgramCompletes :
    Program.wellFormed (expandAll [.rtrip 0 (.decimal ⟨false, 253, 1⟩)]) = true := by decide

end Sys2Proof.Tests
end

section
/-! PROOF. The statements of spec/00_scope.md. First the facts about binary32 that they need: a value other than 0 has one
pattern, and a significand below 2^24 has a pattern at every scale from -149 to 104. -/

namespace Sys2Proof.Proofs

open Sys2Proof Sys2Proof.Machine Sys2Proof.Laws

/-- The value of a finite pattern, from its fields (R45). -/
theorem f32val_of_exp_ne {b : Word} (h : f32Exp b ≠ 255) :
    f32val b = some ((if f32Sign b then -1 else 1) * f32Signif b * (2 : ℚ) ^ f32Scale b) := by
  unfold f32val; rw [if_neg h]

theorem f32Signif_lt (b : Word) : f32Signif b < 2 ^ 24 := by
  have := f32Frac_lt b
  unfold f32Signif; split <;> omega

/-- The sign bit of a pattern of a value other than 0 is the value's sign. -/
theorem f32Sign_eq_decide_neg {b : Word} {x : ℚ} (h : f32val b = some x) (hx : x ≠ 0) : f32Sign b = decide (x < 0) := by
  have hv := f32val_eq_units h
  have h0 : (0 : ℚ) ≤ (f32Units b : ℚ) / 2 ^ 149 := by positivity
  cases hs : f32Sign b <;> simp only [hs, Bool.false_eq_true, if_false, if_true] at hv
  · exact (decide_eq_false (by linarith)).symm
  · exact (decide_eq_true (lt_of_le_of_ne (by linarith) hx)).symm

/-- Only zero has two patterns: any other value determines the pattern. -/
theorem f32val_inj {b c : Word} {x : ℚ} (hb : f32val b = some x) (hc : f32val c = some x) (hx : x ≠ 0) : b = c := by
  have hs : f32Sign b = f32Sign c := by rw [f32Sign_eq_decide_neg hb hx, f32Sign_eq_decide_neg hc hx]
  have hu : f32Units b = f32Units c := by
    have h := (f32val_abs hb).symm.trans (f32val_abs hc)
    rw [div_left_inj' (by norm_num)] at h
    exact_mod_cast h
  have hm : f32Mag b = f32Mag c :=
    le_antisymm ((f32Units_le_iff_mag_le b c).1 hu.le) ((f32Units_le_iff_mag_le c b).1 hu.ge)
  apply BitVec.eq_of_toNat_eq
  rw [f32_toNat_eq_sign_mag, f32_toNat_eq_sign_mag c, hs, hm]

/-- Every choice of the three fields is some pattern's. -/
theorem exists_f32_of_fields (s : Bool) {E F : ℕ} (hE : E < 2 ^ 8) (hF : F < 2 ^ 23) :
    ∃ c : Word, f32Sign c = s ∧ f32Exp c = E ∧ f32Frac c = F := by
  refine ⟨BitVec.ofNat 32 ((if s then 2 ^ 31 else 0) + E * 2 ^ 23 + F), ?_⟩
  generalize hc : BitVec.ofNat 32 _ = c
  have hN : c.toNat = (if s then 2 ^ 31 else 0) + E * 2 ^ 23 + F := by
    rw [← hc, BitVec.toNat_ofNat, Nat.mod_eq_of_lt]
    split <;> omega
  have hsm := f32_toNat_eq_sign_mag c
  rw [hN, f32Mag_eq_fields] at hsm
  have h1 := f32Exp_lt c
  have h2 := f32Frac_lt c
  have hs : f32Sign c = s := by
    cases s <;> cases h : f32Sign c <;> simp [h] at hsm ⊢ <;> omega
  rw [hs] at hsm
  exact ⟨hs, by omega, by omega⟩

/-- A significand with its top bit set has a pattern e binades above the least scale, of exponent field e + 1. -/
theorem exists_f32_normal (s : Bool) {e m : ℕ} (he : e ≤ 253) (hlo : 2 ^ 23 ≤ m) (hhi : m < 2 ^ 24) :
    ∃ c : Word, f32val c = some ((if s then -1 else 1) * (m : ℚ) * 2 ^ ((e : ℤ) - 149)) := by
  obtain ⟨c, hs, hE, hF⟩ := exists_f32_of_fields s (E := e + 1) (F := m - 2 ^ 23) (by omega) (by omega)
  have hM : f32Signif c = m := by unfold f32Signif; rw [if_neg (by omega)]; omega
  have hP : f32Scale c = e - 149 := by unfold f32Scale; rw [if_neg (by omega)]; omega
  exact ⟨c, by rw [f32val_of_exp_ne (by omega), hs, hM, hP]⟩

/-- A significand below 2^23 has a pattern at the least scale, a subnormal or a zero. -/
theorem exists_f32_subnormal (s : Bool) {m : ℕ} (hm : m < 2 ^ 23) :
    ∃ c : Word, f32val c = some ((if s then -1 else 1) * (m : ℚ) * 2 ^ (-149 : ℤ)) := by
  obtain ⟨c, hs, hE, hF⟩ := exists_f32_of_fields s (E := 0) (by omega) hm
  have hM : f32Signif c = m := by unfold f32Signif; rw [if_pos hE, hF]
  have hP : f32Scale c = -149 := by unfold f32Scale; rw [if_pos hE]
  exact ⟨c, by rw [f32val_of_exp_ne (by omega), hs, hM, hP]⟩

/-- Any significand below 2^24 has a pattern e binades above the least scale: one without its top bit is doubled into the
binade below, down to the subnormals. -/
theorem exists_f32_of_signif (s : Bool) {e m : ℕ} (he : e ≤ 253) (hm : m < 2 ^ 24) :
    ∃ c : Word, f32val c = some ((if s then -1 else 1) * (m : ℚ) * 2 ^ ((e : ℤ) - 149)) := by
  induction e generalizing m with
  | zero =>
    by_cases hlo : 2 ^ 23 ≤ m
    · exact exists_f32_normal s he hlo hm
    · simpa using exists_f32_subnormal s (Nat.lt_of_not_le hlo)
  | succ e ih =>
    by_cases hlo : 2 ^ 23 ≤ m
    · exact exists_f32_normal s he hlo hm
    · obtain ⟨c, hc⟩ := ih (m := 2 * m) (by omega) (by omega)
      have hp : (2 : ℚ) ^ (((e + 1 : ℕ) : ℤ) - 149) = 2 * 2 ^ ((e : ℤ) - 149) := by
        rw [← zpow_one_add₀ (by norm_num)]; congr 1; push_cast; ring
      refine ⟨c, hc.trans ?_⟩
      rw [hp]; congr 1; push_cast; ring

/-- Dividing by RES is multiplying by 16 (R8). -/
theorem div_res (x : ℚ) : x / res = 16 * x := by
  unfold res; ring

/-- ENC's range check on the bits is the range of the value (R57): both bound the count of units, each sign by its own limit. -/
theorem encInRange_iff_val {b : Word} {x : ℚ} (h : f32val b = some x) : encInRange b = true ↔ -40 ≤ x ∧ x ≤ 128 := by
  have hv := f32val_eq_units h
  have hcast : ∀ n : ℕ, f32Units b ≤ n * 2 ^ 149 ↔ (f32Units b : ℚ) / 2 ^ 149 ≤ n := fun n => by
    rw [div_le_iff₀ (by positivity)]; exact_mod_cast Iff.rfl
  have h0 : (0 : ℚ) ≤ (f32Units b : ℚ) / 2 ^ 149 := by positivity
  rw [encInRange_iff_units, hcast]
  generalize (f32Units b : ℚ) / 2 ^ 149 = u at *
  cases hs : f32Sign b <;> simp only [hs, Bool.false_eq_true, if_false, if_true] at hv ⊢ <;> push_cast
  · exact ⟨fun hu => ⟨by linarith, by linarith⟩, fun ⟨_, hu⟩ => by linarith⟩
  · exact ⟨fun hu => ⟨by linarith, by linarith⟩, fun ⟨hu, _⟩ => by linarith⟩

/-- Sixteen times a value in ENC's range has a pattern: the significand stays and the scale grows by 4. -/
theorem exists_f32_sixteen_mul {b : Word} {x : ℚ} (h : f32val b = some x) (hr : encInRange b = true) :
    ∃ c : Word, f32val c = some (16 * x) := by
  have hE := f32Exp_le_of_encInRange hr
  have hP : -149 ≤ f32Scale b ∧ f32Scale b ≤ -16 := by unfold f32Scale; split <;> omega
  obtain ⟨e, he⟩ : ∃ e : ℕ, f32Scale b + 4 = (e : ℤ) - 149 := ⟨(f32Scale b + 153).toNat, by omega⟩
  obtain ⟨c, hc⟩ := exists_f32_of_signif (f32Sign b) (e := e) (by omega) (f32Signif_lt b)
  rw [f32val_of_exp_ne (by omega)] at h
  refine ⟨c, hc.trans ?_⟩
  rw [← he, zpow_add₀ (by norm_num), ← Option.some.inj h]
  congr 1; ring

/-- Settles O2: in range, 16 x keeps x's significand at a scale 4 greater. -/
theorem scalingInRangeIsExact : Obligations.ScalingInRangeIsExact := by
  intro b x h hlo hhi
  rw [div_res]
  exact ⟨rfl, by linarith, by linarith, exists_f32_sixteen_mul h ((encInRange_iff_val h).2 ⟨hlo, hhi⟩)⟩

/-- Settles O3: `f32OfK k` has the value k / 16, and a value other than 0 has no second pattern. -/
theorem f32OfKIsTheOnlyPattern : Obligations.F32OfKIsTheOnlyPattern := by
  intro k b hlo hhi h0
  have hk := f32val_f32OfK (k := k) (by omega)
  have hne : (k : ℚ) / 16 ≠ 0 := div_ne_zero (by exact_mod_cast h0) (by norm_num)
  exact ⟨fun hb => f32val_inj hb hk hne, fun hb => hb ▸ hk⟩

/-- Settles O1: the patterns of TMIN and TMAX are `f32OfK` at -640 and 2048, whose values are known. -/
theorem parametersAgree : Obligations.ParametersAgree := by
  have hmin : tminBits = f32OfK (-640) := by decide
  have hmax : tmaxBits = f32OfK 2048 := by decide
  have vmin : f32val tminBits = some tmin := by
    rw [hmin, f32val_f32OfK (by decide)]; norm_num [tmin]
  have vmax : f32val tmaxBits = some tmax := by
    rw [hmax, f32val_f32OfK (by decide)]; norm_num [tmax]
  exact ⟨by norm_num [res, fracBits], rfl, rfl, vmin, vmax, by decide, by decide⟩

/-- Settles O13: `step` is `exec` of the decoded operation, by its definition. -/
theorem stepRunsDecodedOperation : Obligations.StepRunsDecodedOperation := by
  rintro s i - rfl
  rfl

end Sys2Proof.Proofs
end

section
/-! PROOF. The statements of spec/10_state.md: what an operation's outputs depend on, which ports it drives, that the outputs
follow the inputs, and the invariant that all outputs are legal. -/

namespace Sys2Proof.Proofs

open Sys2Proof Sys2Proof.Machine Sys2Proof.Laws

/-! The ports each operation reads (R19) -/

theorem decOut_congr (fs : Word) {i j : In} (hp : i.present = j.present) (h0 : i.bin0 = j.bin0) (h1 : i.bin1 = j.bin1) :
    decOut fs i = decOut fs j := by
  unfold decOut; rw [hp, h0, h1]

theorem encOut_congr {i j : In} (h : i.fin = j.fin) : encOut i = encOut j := by
  unfold encOut; rw [h]

theorem joinOut_congr {i j : In} (h0 : i.bin0 = j.bin0) (h1 : i.bin1 = j.bin1) : joinOut i = joinOut j := by
  rw [joinOut_eq, joinOut_eq, h0, h1]

theorem splitOut_congr {i j : In} (h : i.rin = j.rin) : splitOut i = splitOut j := by
  rw [splitOut_eq, splitOut_eq, h]

/-! The ports each operation leaves undriven (R22) -/

theorem decOut_undriven (fs : Word) (i : In) :
    (decOut fs i).rout = 0#16 ∧ (decOut fs i).bout0 = 0#8 ∧ (decOut fs i).bout1 = 0#8 := by
  cases h : i.present
  · rw [decOut_absent fs h]; exact ⟨rfl, rfl, rfl⟩
  · rw [decOut_present fs h]; exact ⟨rfl, rfl, rfl⟩

theorem encOut_undriven (i : In) :
    (encOut i).fout = 0#32 ∧ (encOut i).bout0 = 0#8 ∧ (encOut i).bout1 = 0#8 := by
  cases h : encInRange i.fin
  · rw [encOut_outOfRange h]; exact ⟨rfl, rfl, rfl⟩
  · rw [encOut_inRange h]; exact ⟨rfl, rfl, rfl⟩

/-! Legal outputs (R54, R74, R75) -/

/-- `f32OfK` never gives -0.0: it gives +0.0 for k = 0, and a pattern with a non-zero exponent field otherwise (R47). -/
theorem f32OfK_ne_negZero {k : ℤ} (hk : k.natAbs ≤ 2048) : f32OfK k ≠ 0x80000000#32 := by
  by_cases h0 : k = 0
  · subst h0; decide
  · intro h
    obtain ⟨-, hE, -⟩ := f32OfK_fields h0 hk
    have hE0 : f32Exp 0x80000000#32 = 0 := by decide
    rw [h, hE0] at hE
    omega

theorem isDecResult_f32OfK {k : ℤ} (hlo : -2048 ≤ k) (hhi : k ≤ 2047) : IsDecResult (f32OfK k) := by
  refine ⟨f32OfK_ne_negZero (by omega), k, hlo, hhi, ?_⟩
  rw [f32val_f32OfK (by omega), res, mul_one_div]

theorem isDecResult_zero : IsDecResult 0#32 :=
  isDecResult_f32OfK (k := 0) (by decide) (by decide)

theorem isDecResult_dec (b0 b1 : Byte) : IsDecResult (f32OfK (decK b0 b1)) := by
  obtain ⟨hlo, hhi⟩ := regK_range (joinBytes b0 b1)
  rw [decK_eq_regK]
  exact isDecResult_f32OfK hlo hhi

/-- Under OK, outputs are legal when `fout` is a DEC result and only one operation's ports are driven. -/
theorem legal_ok {f : Word} {r : Half} {b0 b1 : Byte} (hf : IsDecResult f)
    (hfout : f ≠ 0#32 → r = 0#16 ∧ b0 = 0#8 ∧ b1 = 0#8) (hrout : r ≠ 0#16 → f = 0#32 ∧ b0 = 0#8 ∧ b1 = 0#8) :
    Out.Legal ⟨0b00#2, f, r, b0, b1⟩ :=
  have hbus : statusOk ≠ statusBusError := by decide
  have hinvalid : statusOk ≠ statusInvalidInput := by decide
  have hrange : statusOk ≠ statusOutOfRange := by decide
  ⟨hbus, fun h => absurd h hinvalid, fun h => absurd h hrange, fun _ => hf, hfout, hrout⟩

theorem legal_invalidInput : Out.Legal ⟨0b01#2, Config.floatSentinel, 0#16, 0#8, 0#8⟩ :=
  ⟨by decide, fun _ => ⟨rfl, rfl, rfl, rfl⟩, fun h => absurd h (by decide), fun h => absurd h (by decide),
    fun _ => ⟨rfl, rfl, rfl⟩, fun h => absurd rfl h⟩

theorem legal_outOfRange : Out.Legal ⟨0b10#2, 0#32, u16Sentinel, 0#8, 0#8⟩ :=
  ⟨by decide, fun h => absurd h (by decide), fun _ => ⟨rfl, rfl, rfl, rfl⟩, fun h => absurd h (by decide),
    fun h => absurd rfl h, fun _ => ⟨rfl, rfl, rfl⟩⟩

theorem decOut_legal (i : In) : (decOut Config.floatSentinel i).Legal := by
  cases h : i.present
  · rw [decOut_absent _ h]; exact legal_invalidInput
  · rw [decOut_present _ h]
    exact legal_ok (isDecResult_dec _ _) (fun _ => ⟨rfl, rfl, rfl⟩) (fun h => absurd rfl h)

theorem encOut_legal (i : In) : (encOut i).Legal := by
  cases h : encInRange i.fin
  · rw [encOut_outOfRange h]; exact legal_outOfRange
  · rw [encOut_inRange h]
    exact legal_ok isDecResult_zero (fun h => absurd rfl h) (fun _ => ⟨rfl, rfl, rfl⟩)

theorem joinOut_legal (i : In) : (joinOut i).Legal := by
  rw [joinOut_eq]
  exact legal_ok isDecResult_zero (fun h => absurd rfl h) (fun _ => ⟨rfl, rfl, rfl⟩)

theorem splitOut_legal (i : In) : (splitOut i).Legal := by
  rw [splitOut_eq]
  exact legal_ok isDecResult_zero (fun h => absurd rfl h) (fun h => absurd rfl h)

/-- Whatever the inputs, the block drives legal outputs. -/
theorem codec_legal (i : In) : (codec Config.floatSentinel i).Legal := by
  unfold codec
  cases decodeOp i.op with
  | dec => exact decOut_legal i
  | enc => exact encOut_legal i
  | join => exact joinOut_legal i
  | split => exact splitOut_legal i

theorem out_legal (s : State) : s.out.Legal := codec_legal s.inp

theorem presenting_inv {s : State} (h : s.Inv) (i : In) : (s.presenting i).Inv :=
  ⟨out_legal _, h.2⟩

theorem observing_inv {s : State} (h : s.Inv) {o : Out} (ho : o.Legal) : (s.observing o).Inv := by
  obtain ⟨hout, hobs⟩ := h
  refine ⟨hout, fun r hr => ?_⟩
  rw [observing_observed, List.mem_append, List.mem_singleton] at hr
  rcases hr with hr | rfl
  · exact hobs r hr
  · exact ho

theorem step_inv {s t : State} (h : s.Inv) (hst : step s = .next t) : t.Inv := by
  rw [step_eq_observing_out, Host.Outcome.next.injEq] at hst
  exact hst ▸ observing_inv h (out_legal s)

/-- Settles O46: both a presentation and a step keep the invariant, since the outputs of every operation are legal. -/
theorem legalOutputsInvariant : Obligations.LegalOutputsInvariant := by
  intro s i h
  have hi := presenting_inv h i
  exact ⟨hi, fun _ => step_inv hi⟩

/-- Settles O4: each operation's outputs are a function of the ports it reads. -/
theorem operationReadsOnlyItsPorts : Obligations.OperationReadsOnlyItsPorts := by
  intro s t
  refine ⟨fun hp h0 h1 => ⟨_, exec_dec s, ?_⟩, fun h => ⟨_, exec_enc s, ?_⟩, fun h0 h1 => ⟨_, exec_join s, ?_⟩,
    fun h => ⟨_, exec_split s, ?_⟩⟩
  · rw [decOut_congr _ hp h0 h1]; exact exec_dec t
  · rw [encOut_congr h]; exact exec_enc t
  · rw [joinOut_congr h0 h1]; exact exec_join t
  · rw [splitOut_congr h]; exact exec_split t

/-- Settles O5: a step lets the host observe the output ports, and these are `codec` of the inputs. -/
theorem outputsDependOnInputsAlone : Obligations.OutputsDependOnInputsAlone := by
  intro s t h
  have hout : s.out = t.out := congrArg (codec Config.floatSentinel) h
  exact ⟨hout, s.out, step_eq_observing_out s, hout ▸ step_eq_observing_out t⟩

/-- Settles O6: every operation only lets the host observe its outputs, and these are 0 on the ports it does not drive. -/
theorem undrivenOutputsAreZero : Obligations.UndrivenOutputsAreZero := by
  intro i s t h
  rw [exec_eq_observing, Host.Outcome.next.injEq] at h
  subst h
  refine ⟨rfl, _, rfl, ?_, ?_, ?_, ?_⟩ <;> rintro rfl
  · exact decOut_undriven _ _
  · exact encOut_undriven _
  · exact ⟨rfl, rfl, rfl⟩
  · exact ⟨rfl, rfl⟩

/-- Settles O7: DEC's status tells the two values of `present` apart; the other operations do not read it, by O4. -/
theorem onlyDecReadsPresent : Obligations.OnlyDecReadsPresent := by
  intro s p
  obtain ⟨-, henc, hjoin, hsplit⟩ := operationReadsOnlyItsPorts s (s.presenting { s.inp with present := p })
  refine ⟨⟨_, _, exec_dec _, exec_dec _, ?_⟩, fun i hi => ?_⟩
  · rw [decOut_present _ rfl, decOut_absent _ rfl]
    exact (by decide : 0b00#2 ≠ 0b01#2)
  · cases i with
    | dec => exact absurd rfl hi
    | enc => exact henc rfl
    | join => exact hjoin rfl rfl
    | split => exact hsplit rfl

/-- Settles O48: the output ports are `codec` of the inputs by definition, and the first step lets the host observe them. -/
theorem resetIsSettled : Obligations.ResetIsSettled :=
  ⟨rfl, rfl, fun i => ⟨presenting_out _ i, step_eq_observing_out _⟩⟩

/-- Settles O49: the output ports are `codec` of the inputs by definition, and a step changes the observation alone. -/
theorem stepSettlesOutputs : Obligations.StepSettlesOutputs :=
  fun s i _ _ => ⟨rfl, presenting_out s i, rfl, _, step_eq_observing_out s, observing_inp s _, observing_observed s _,
    observing_out s _⟩

end Sys2Proof.Proofs
end

section
/-! PROOF. The statements of spec/20_memory.md: an operation repeated shows the same outputs again, and operations applied in
any order each show `Codec` of their own inputs. Nothing is kept between operations but the host's observation. -/

namespace Sys2Proof.Proofs

open Sys2Proof Sys2Proof.Machine Sys2Proof.Laws

/-! What the host's presentations do to a state (R35) -/

/-- One presentation always completes; it replaces the inputs and adds their `Codec` to the observation. -/
theorem applyOne_eq (s : State) (i : In) :
    applyOne s i = some ((s.presenting i).observing (codec Config.floatSentinel i)) := by
  unfold applyOne
  rw [step_eq_observing_out, presenting_out]

@[simp] theorem applyAll_nil (s : State) : applyAll s [] = some s := rfl

@[simp] theorem applyAll_cons (s : State) (i : In) (rest : List In) :
    applyAll s (i :: rest) = applyAll ((s.presenting i).observing (codec Config.floatSentinel i)) rest := by
  rw [applyAll, applyOne_eq]
  rfl

/-- The state after a list of presentations, in closed form. -/
theorem applyAll_eq (s : State) (ins : List In) :
    applyAll s ins = some ⟨ins.getLastD s.inp, s.observed ++ ins.map (codec Config.floatSentinel)⟩ := by
  induction ins generalizing s with
  | nil => simp
  | cons i rest ih =>
    rw [applyAll_cons, ih, observing_inp, presenting_inp, observing_observed, presenting_observed,
      List.getLastD_cons, List.map_cons, List.append_assoc, List.singleton_append]

/-- Settles O50, by the closed form of the state after all presentations. -/
theorem presentationsAreIndependent : Obligations.PresentationsAreIndependent :=
  fun s ins => ⟨_, applyAll_eq s ins, rfl, rfl⟩

/-- Settles O8: a step lets the host observe the output ports and leaves these as they are, so the next shows them again. -/
theorem operationsAreIdempotent : Obligations.OperationsAreIdempotent :=
  fun s => ⟨s.out, step_eq_observing_out s, observing_out s _, step_eq_observing_out (s.observing s.out)⟩

end Sys2Proof.Proofs
end

section
/-! PROOF. The statements of spec/30_encoding.md on the operation select, the register value format, binary32 patterns and
`f32OfK`, and host program lines. -/

namespace Sys2Proof.Proofs

open Sys2Proof Sys2Proof.Machine Sys2Proof.Laws

/-! The register value format (R42, R43): a pattern is its integer field above its low 4 bits -/

/-- Bits 15..4 above bits 3..0 are the pattern. -/
theorem intField_append_low (r : Half) : intField r ++ r.extractLsb' 0 4 = r :=
  BitVec.extractLsb'_append_extractLsb' (w := 12) (len := 4) (x := r)

theorem intField_append (n : BitVec 12) (l : BitVec 4) : intField (n ++ l) = n :=
  BitVec.extractLsb'_append_eq_left

/-- Patterns hold the same integer exactly when their integer fields are equal. -/
theorem regK_eq_iff_intField_eq (r r' : Half) : regK r = regK r' ↔ intField r = intField r' := by
  rw [regK_eq_intField_toInt, regK_eq_intField_toInt, BitVec.toInt_inj]

theorem regValue_eq (r : Half) : regValue r = regK r * (1 / 16) := rfl

theorem regValue_eq_iff_intField_eq (r r' : Half) : regValue r = regValue r' ↔ intField r = intField r' := by
  rw [regValue_eq, regValue_eq, mul_left_inj' (by norm_num), Int.cast_inj, regK_eq_iff_intField_eq]

/-- The mask of bits 15..4 keeps the integer field and clears the rest. -/
theorem and_highMask (r : Half) : r &&& 0xFFF0#16 = intField r ++ 0#4 := by
  have hmask : 0xFFF0#16 = (BitVec.allOnes 12 ++ 0#4 : Half) := by decide
  conv_lhs => rw [← intField_append_low r, hmask]
  rw [BitVec.and_append, BitVec.and_allOnes, BitVec.and_zero]

/-- LOW4 keeps the low 4 bits and clears the integer field. -/
theorem and_low4 (r : Half) : r &&& low4 = 0#12 ++ r.extractLsb' 0 4 := by
  have hmask : low4 = (0#12 ++ BitVec.allOnes 4 : Half) := by decide
  conv_lhs => rw [← intField_append_low r, hmask]
  rw [BitVec.and_append, BitVec.and_allOnes, BitVec.and_zero]

theorem wellFormedReg_iff (r : Half) : wellFormedReg r = true ↔ r.extractLsb' 0 4 = 0#4 := by
  have hzero : 0#16 = (0#12 ++ 0#4 : Half) := by decide
  unfold wellFormedReg
  rw [beq_iff_eq, and_low4, hzero, BitVec.append_right_inj]

/-- Bit 15 is set in the upper half of the patterns. -/
theorem getLsbD_15_iff (r : Half) : r.getLsbD 15 = true ↔ 2 ^ 15 ≤ r.toNat := by
  have h := BitVec.msb_eq_getLsbD_last r
  rw [BitVec.msb_eq_decide] at h
  rw [← h, decide_eq_true_iff]

/-- Settles O15: k in terms of the pattern's number, in which bit 15 adds 2^15. -/
theorem registerValueFormat : Obligations.RegisterValueFormat := by
  intro r
  have hk := regK_eq r
  have hf : (r.extractLsb' 4 12).toNat = r.toNat / 16 := intField_toNat r
  have hs := getLsbD_15_iff r
  obtain ⟨hlo, hhi⟩ := regK_range r
  refine ⟨?_, hlo, hhi, regValue_eq r, ?_, wellFormedReg_iff r⟩
  · rw [hf, hk]
    by_cases h : 2 ^ 15 ≤ r.toNat
    · rw [if_neg (by omega), if_pos (hs.2 h)]; rfl
    · rw [if_pos (by omega), if_neg (mt hs.1 h)]; rfl
  · have := r.isLt
    rw [hs, hk]
    split <;> omega

/-- Every integer of the field's range is some pattern's. -/
theorem exists_regK_eq {k : ℤ} (hlo : -2048 ≤ k) (hhi : k ≤ 2047) : ∃ r : Half, regK r = k := by
  refine ⟨BitVec.ofInt 12 k ++ 0#4, ?_⟩
  rw [regK_eq_intField_toInt, intField_append]
  exact BitVec.toInt_ofInt_eq_self (by decide) hlo (by omega)

/-- The values denoted, as the multiples of 1/16 in the range of the integer field. -/
theorem range_regValue : Set.range regValue = (fun k : ℤ => (k : ℚ) * (1 / 16)) '' Set.Icc (-2048) 2047 := by
  ext q
  constructor
  · rintro ⟨r, rfl⟩
    exact ⟨regK r, regK_range r, rfl⟩
  · rintro ⟨k, ⟨hlo, hhi⟩, rfl⟩
    obtain ⟨r, rfl⟩ := exists_regK_eq hlo hhi
    exact ⟨r, rfl⟩

theorem ncard_range_regValue : (Set.range regValue).ncard = 4096 := by
  have hinj : Function.Injective fun k : ℤ => (k : ℚ) * (1 / 16) :=
    (mul_left_injective₀ (by norm_num)).comp Int.cast_injective
  rw [range_regValue, Set.ncard_image_of_injective _ hinj, ← Finset.coe_Icc, Set.ncard_coe_finset, Int.card_Icc]
  rfl

/-- The patterns of one value: its integer field above any low 4 bits. -/
theorem setOf_regValue_eq (r₀ : Half) :
    { r | regValue r = regValue r₀ } = Set.range fun l : Fin 16 => intField r₀ ++ BitVec.ofFin (w := 4) l := by
  ext r
  rw [Set.mem_ofPred_eq, regValue_eq_iff_intField_eq]
  constructor
  · intro h
    exact ⟨(r.extractLsb' 0 4).toFin, (congrArg (· ++ r.extractLsb' 0 4) h.symm).trans (intField_append_low r)⟩
  · rintro ⟨l, rfl⟩
    exact intField_append _ _

theorem ncard_setOf_regValue_eq (r₀ : Half) : { r | regValue r = regValue r₀ }.ncard = 16 := by
  have hinj : Function.Injective fun l : Fin 16 => intField r₀ ++ BitVec.ofFin (w := 4) l := fun l l' h =>
    BitVec.ofFin.inj ((BitVec.append_right_inj _).1 h)
  rw [setOf_regValue_eq, Set.ncard_range_of_injective hinj, Nat.card_fin]

/-- Settles O16: a value is its integer field's, and the low 4 bits are free. -/
theorem registerValuesDenoted : Obligations.RegisterValuesDenoted := by
  refine ⟨?_, ncard_range_regValue, by decide +kernel, by decide +kernel, fun r h => ?_, fun r r' => ?_, ?_⟩
  · rw [range_regValue]
    ext q
    simp only [Set.mem_image, Set.mem_Icc, Set.mem_ofPred_eq, and_assoc]
  · have hk : (regK r : ℚ) ≤ 2047 := by exact_mod_cast (regK_range r).2
    rw [regValue_eq] at h
    linarith
  · rw [regValue_eq_iff_intField_eq, and_highMask, and_highMask, BitVec.append_left_inj]
  · rintro _ ⟨r₀, rfl⟩
    exact ncard_setOf_regValue_eq r₀

/-! Binary32 patterns (R46, R47) -/

/-- A pattern is finite exactly when its magnitude bits are below infinity's. -/
theorem f32Exp_ne_iff_mag_lt (b : Word) : f32Exp b ≠ 255 ↔ f32Mag b < 0x7F800000 := by
  have hE := f32Exp_lt b
  have hF := f32Frac_lt b
  rw [f32Mag_eq_fields]
  omega

/-- A pattern is an infinity exactly when its magnitude bits are 255 × 2^23. -/
theorem f32IsInf_iff_mag_eq (b : Word) : f32IsInf b = true ↔ f32Mag b = 0x7F800000 := by
  have hF := f32Frac_lt b
  rw [f32Mag_eq_fields]
  unfold f32IsInf
  rw [Bool.and_eq_true, beq_iff_eq, beq_iff_eq]
  omega

/-- Settles O17: a magnitude is a count of units, which grows with bits 30..0. -/
theorem magnitudeFollowsLowBits : Obligations.MagnitudeFollowsLowBits := by
  refine ⟨fun b c x y _ hb hc => ?_, fun b c x _ hb hc => ?_⟩
  · rw [f32val_abs hb, f32val_abs hc, div_le_div_iff_of_pos_right (by positivity), Nat.cast_le]
    exact f32Units_le_iff_mag_le b c
  · have hb' := (f32Exp_ne_iff_mag_lt b).1 ((f32val_isSome_iff b).1 ⟨x, hb⟩)
    exact hb'.trans_eq ((f32IsInf_iff_mag_eq c).1 hc).symm

/-- The pattern of `f32OfK k` for k ≠ 0, as a number: its three fields, each at its place. -/
theorem f32OfK_toNat {k : ℤ} (h0 : k ≠ 0) (hk : k.natAbs ≤ 2048) :
    (f32OfK k).toNat = (if k < 0 then 2 ^ 31 else 0) + (123 + k.natAbs.log2) * 2 ^ 23 +
      (k.natAbs - 2 ^ k.natAbs.log2) * 2 ^ (23 - k.natAbs.log2) := by
  obtain ⟨hs, hE, hF⟩ := f32OfK_fields h0 hk
  simp only [f32_toNat_eq_sign_mag, f32Mag_eq_fields, hs, hE, hF, decide_eq_true_eq, add_assoc]

/-- Settles O18: the value and the fields of `f32OfK` are known for every k in the range. -/
theorem f32OfKIsExact : Obligations.F32OfKIsExact := by
  refine ⟨fun k hlo hhi => ?_, by decide⟩
  have hk : k.natAbs ≤ 2048 := by omega
  exact ⟨mul_one_div (k : ℚ) 16 ▸ f32val_f32OfK hk, f32OfK_ne_negZero hk, fun h0 => f32OfK_toNat h0 hk⟩

/-! The operation select (R38 to R40) -/

/-- The operation select holds for every operation. -/
theorem opSelect (i : Instr) : OpSelect.Statement i := by
  cases i with
  | dec => exact OpSelect.dec
  | enc => exact OpSelect.enc
  | join => exact OpSelect.join
  | split => exact OpSelect.split

@[simp] theorem decodeOp_encodeOp (i : Instr) : decodeOp (encodeOp i) = i := by
  obtain ⟨-, hdec, -⟩ := opSelect i
  exact hdec

@[simp] theorem encodeOp_decodeOp (op : Pair) : encodeOp (decodeOp op) = op := by
  obtain ⟨-, -, honly⟩ := opSelect (decodeOp op)
  exact (honly op rfl).symm

/-- A table word of 8 bits that holds an operation's `op` value decodes to the operation. -/
theorem decodeTableWord_encodeOp (i : Instr) : decodeTableWord 8 (encodeOp i).toNat = some i := by
  cases i <;> rfl

/-- Settles O9: `step` is `exec` of what the op port decodes to (O13). -/
theorem opPortSelectsOperation : Obligations.OpPortSelectsOperation := by
  intro s
  have hstep (i : Instr) (h : s.inp.op = encodeOp i) : step s = exec i s :=
    stepRunsDecodedOperation s i (opSelect i).1 (by rw [h, decodeOp_encodeOp])
  exact ⟨hstep .dec, hstep .enc, hstep .join, hstep .split⟩

/-- Settles O10: `encodeOp` is the inverse of `decodeOp`, and every step completes. -/
theorem decodingIsABijection : Obligations.DecodingIsABijection :=
  ⟨Function.bijective_iff_has_inverse.2 ⟨encodeOp, encodeOp_decodeOp, decodeOp_encodeOp⟩,
    fun s => ⟨_, step_eq_observing_out s⟩⟩

/-- Settles O11: `encodeOp` and `decodeOp` are inverse to each other. -/
theorem decodeEncodeAgree : Obligations.DecodeEncodeAgree :=
  ⟨fun i _ => decodeOp_encodeOp i, encodeOp_decodeOp⟩

/-- Settles O12: the table's words are the `op` values of its rows. -/
theorem tableWordsDecode : Obligations.TableWordsDecode :=
  ⟨decodeTableWord_encodeOp .dec, decodeTableWord_encodeOp .enc, decodeTableWord_encodeOp .join,
    decodeTableWord_encodeOp .split⟩

/-- Settles O14: the word's two low bits are on the op port, and a step is `exec` of what they decode to. -/
theorem placedWordRunsNext : Obligations.PlacedWordRunsNext := by
  intro s nbits w i h
  have hstep : step (s.withFetchWord nbits w) = exec i (s.withFetchWord nbits w) :=
    stepRunsDecodedOperation _ i (opSelect i).1 (Option.some.inj h)
  exact ⟨hstep, rfl, rfl, hstep.symm.trans (step_eq_observing_out _)⟩

/-! Host program lines (R49, R50) -/

section
variable {tr : Trace}

theorem linePorts_dec {a0 a1 : ByteArg} {b0 b1 : Byte} (h0 : evalByte tr a0 = some b0) (h1 : evalByte tr a1 = some b1) :
    linePorts tr (.dec a0 a1) = some ⟨0b00#2, true, b0, b1, 0#32, 0#16⟩ := by
  rw [linePorts, h0, h1]; rfl

theorem linePorts_join {a0 a1 : ByteArg} {b0 b1 : Byte} (h0 : evalByte tr a0 = some b0) (h1 : evalByte tr a1 = some b1) :
    linePorts tr (.join a0 a1) = some ⟨0b10#2, false, b0, b1, 0#32, 0#16⟩ := by
  rw [linePorts, h0, h1]; rfl

theorem linePorts_enc {a : FloatArg} {f : Word} (h : evalFloat tr a = some f) :
    linePorts tr (.enc a) = some ⟨0b01#2, false, 0#8, 0#8, f, 0#16⟩ := by
  rw [linePorts, h]; rfl

theorem linePorts_split {a : RegArg} {r : Half} (h : evalReg tr a = some r) :
    linePorts tr (.split a) = some ⟨0b11#2, false, 0#8, 0#8, 0#32, r⟩ := by
  rw [linePorts, h]; rfl

/-! What a reference stands for: an output port of the line labelled so -/

variable {l : Label} {o : Out} (h : tr.lookup l = some o)
include h

theorem evalByte_bout0 : evalByte tr (.bout0 l) = some o.bout0 := congrArg (Option.map Out.bout0) h
theorem evalByte_bout1 : evalByte tr (.bout1 l) = some o.bout1 := congrArg (Option.map Out.bout1) h
theorem evalFloat_fout : evalFloat tr (.fout l) = some o.fout := congrArg (Option.map Out.fout) h
theorem evalReg_rout : evalReg tr (.rout l) = some o.rout := congrArg (Option.map Out.rout) h

end

/-- Settles O19: each form by its own lemma, and each reference by the line it names. -/
theorem lineFormsPresentTheirPorts : Obligations.LineFormsPresentTheirPorts := fun _ =>
  ⟨fun _ _ _ _ h0 h1 => ⟨linePorts_dec h0 h1, linePorts_join h0 h1⟩, rfl, fun _ _ => linePorts_enc,
    fun _ _ => linePorts_split, fun _ _ _ _ => ⟨rfl, rfl, rfl, rfl⟩,
    fun _ _ h => ⟨evalByte_bout0 h, evalByte_bout1 h, evalFloat_fout h, evalReg_rout h⟩⟩

/-- A line that presents the inputs `i` is one application of them; the lines after it see its outputs under its label. -/
theorem runLines_cons {s : State} {done : List Label} {l : Line} {i : In}
    (h : linePorts (done.zip s.observed) l.form = some i) (rest : List Line) :
    runLines s done (l :: rest) =
      runLines ((s.presenting i).observing (codec Config.floatSentinel i)) (done ++ [l.label]) rest := by
  rw [runLines, h]
  simp only [Option.bind_eq_bind, Option.bind_some, applyOne_eq]

/-- What is observed of lines, from what is observed of those after the first. -/
theorem runLines_cons_observed {s : State} {done : List Label} {l : Line} {i : In} {rest : List Line}
    {outs : Option (List Out)} (h : linePorts (done.zip s.observed) l.form = some i)
    (hrest : (runLines ((s.presenting i).observing (codec Config.floatSentinel i)) (done ++ [l.label]) rest).map
      State.observed = outs) : (runLines s done (l :: rest)).map State.observed = outs := by
  rw [runLines_cons h, hrest]

/-- An application of the inputs `i`, selected as operation `op`, lets the host observe their `Codec`. -/
theorem observes_codec (op : Instr) (s : State) {i : In} (h : i.op = encodeOp op) :
    Observes op (s.presenting i) (codec Config.floatSentinel i) := by
  rw [Observes, exec_eq_observing, presenting_inp, ← h]

/-- Settles O20: line by line, each presenting what the outputs before it stand for. -/
theorem pseudoOperationsChain : Obligations.PseudoOperationsChain := by
  intro s n a f h
  refine ⟨_, _, _, observes_codec .enc s rfl, observes_codec .split s rfl, observes_codec .dec s rfl, ?_, ?_⟩
  · exact runLines_cons_observed (linePorts_enc h) <|
      runLines_cons_observed (linePorts_split (evalReg_rout List.lookup_cons_self)) rfl
  · exact runLines_cons_observed (linePorts_enc h) <|
      runLines_cons_observed (linePorts_split (evalReg_rout List.lookup_cons_self)) <|
      runLines_cons_observed
        (linePorts_dec (evalByte_bout0 List.lookup_cons_self) (evalByte_bout1 List.lookup_cons_self)) rfl

end Sys2Proof.Proofs
end

section
/-! PROOF. The statements of spec/30_encoding.md on decimal literals (R49). A magnitude x is rounded to an integer number m of
steps `ulp e`, the spacing of the patterns in x's own binade; so m is the integer nearest to x / ulp e. -/

namespace Sys2Proof.Proofs

open Sys2Proof Sys2Proof.Machine Sys2Proof.Laws

/-- The spacing of the patterns e binades above the least: 2^e units of 2^-149. -/
def ulp (e : ℕ) : ℚ := 2 ^ ((e : ℤ) - 149)

theorem ulp_pos (e : ℕ) : 0 < ulp e := by
  unfold ulp; positivity

theorem ulp_eq (e : ℕ) : ulp e = 2 ^ e / 2 ^ 149 := by
  unfold ulp
  rw [zpow_sub₀ (by norm_num), zpow_natCast]
  norm_cast

theorem ulp_mono {e e' : ℕ} (h : e ≤ e') : ulp e ≤ ulp e' :=
  zpow_le_zpow_right₀ (by norm_num) (by omega)

/-- x rounds to m steps of `ulp e`, ties to even, and x lies in the binade of that spacing (or below it, for the least). -/
structure RoundsTo (x : ℚ) (e m : ℕ) : Prop where
  near : |x / ulp e - m| ≤ 1 / 2
  even : |x / ulp e - m| = 1 / 2 → m % 2 = 0
  ge : e = 0 ∨ 2 ^ 23 ≤ x / ulp e
  lt : x / ulp e < 2 ^ 24

/-- The magnitude bits of m × `ulp e`, for m at most 2^24, and at least 2^23 where e is not 0. -/
def magOf (e m : ℕ) : ℕ := if m < 2 ^ 23 then m else (e + 1) * 2 ^ 23 + (m - 2 ^ 23)

theorem magOf_mod_two (e m : ℕ) : magOf e m % 2 = m % 2 := by
  unfold magOf; split <;> omega

/-! What `f32NearestMag` gives -/

theorem roundsTo_zero : RoundsTo 0 0 0 :=
  ⟨by norm_num, fun _ => rfl, .inl rfl, by norm_num⟩

/-- `f32NearestMag` rounds n / d, and is infinity where the rounding has no finite pattern. -/
theorem f32NearestMag_roundsTo (n : ℕ) {d : ℕ} (hd : 0 < d) :
    ∃ e m : ℕ, RoundsTo ((n : ℚ) / d) e m ∧ f32NearestMag n d = min (magOf e m) 0x7F800000 := by
  rcases Nat.eq_zero_or_pos n with rfl | hn
  · exact ⟨0, 0, by simpa using roundsTo_zero, rfl⟩
  obtain ⟨P, m, hP, hnear, heven, hmag⟩ := f32NearestMag_rounds hn hd
  obtain ⟨hlo, hhi⟩ := floorLog2Ratio_binade hn hd
  generalize floorLog2Ratio n d = g at *
  obtain ⟨e, rfl⟩ : ∃ e : ℕ, P = (e : ℤ) - 149 := ⟨(P + 149).toNat, by omega⟩
  refine ⟨e, m, ⟨hnear, heven, or_iff_not_imp_left.2 fun he => ?_, ?_⟩, ?_⟩
  · have hg : (23 : ℕ) + ((e : ℤ) - 149) = g := by push_cast; omega
    rwa [le_div_iff₀ (ulp_pos e), ulp, ← zpow_natCast, ← zpow_add₀ (by norm_num), hg]
  · rw [div_lt_iff₀ (ulp_pos e), ulp, ← zpow_natCast, ← zpow_add₀ (by norm_num)]
    exact hhi.trans_le (zpow_le_zpow_right₀ (by norm_num) (by push_cast; omega))
  · rw [hmag, magOf, (by omega : ((e : ℤ) - 149 + 150).toNat = e + 1)]

section
variable {x : ℚ} {e m : ℕ} (h : RoundsTo x e m)
include h

theorem RoundsTo.le : m ≤ 2 ^ 24 := by
  have hn := (abs_le.1 h.near).1
  have hl := h.lt
  have : (m : ℚ) < (2 ^ 24 + 1 : ℕ) := by push_cast; linarith
  exact Nat.lt_succ_iff.1 (by exact_mod_cast this)

/-- Above the least binade the rounding has its top bit set. -/
theorem RoundsTo.le_of_pos (he : 0 < e) : 2 ^ 23 ≤ m := by
  have hn := (abs_le.1 h.near).2
  have hg := h.ge.resolve_left he.ne'
  have : ((2 ^ 23 : ℕ) : ℚ) < (m + 1 : ℕ) := by push_cast; linarith
  exact Nat.lt_succ_iff.1 (by exact_mod_cast this)

/-- From half a step below 2^24 on the rounding carries out of the significand: the tie goes up, as 2^24 - 1 is odd. -/
theorem RoundsTo.lt_iff : m < 2 ^ 24 ↔ x / ulp e < 2 ^ 24 - 1 / 2 := by
  obtain ⟨hn1, hn2⟩ := abs_le.1 h.near
  constructor
  · intro hm
    by_contra hx
    have hle : (m : ℚ) + 1 ≤ 2 ^ 24 := by exact_mod_cast hm
    have hge : 2 ^ 24 ≤ m + 1 := by
      have : (2 ^ 24 : ℚ) ≤ m + 1 := by linarith
      exact_mod_cast this
    have := h.even (le_antisymm h.near (le_trans (by linarith) (le_abs_self _)))
    omega
  · intro hx
    have : (m : ℚ) < (2 ^ 24 : ℕ) := by push_cast; linarith
    exact_mod_cast this

/-- The rounding has a finite pattern exactly below 2^128 - 2^103, half a step past the greatest of them. -/
theorem RoundsTo.magOf_lt_iff : magOf e m < 0x7F800000 ↔ x < 2 ^ 128 - 2 ^ 103 := by
  have hle := h.le
  unfold magOf
  rcases Nat.lt_trichotomy e 253 with he | rfl | he
  · have hx := (div_lt_iff₀ (ulp_pos e)).1 h.lt
    have hu : ulp e ≤ 2 ^ 103 := (ulp_mono (by omega : e ≤ 252)).trans_eq (by norm_num [ulp_eq])
    exact iff_of_true (by split <;> omega) (by linarith)
  · have hm := h.le_of_pos (by norm_num)
    have hu : ulp 253 = 2 ^ 104 := by norm_num [ulp_eq]
    rw [if_neg (by omega)]
    calc (253 + 1) * 2 ^ 23 + (m - 2 ^ 23) < 0x7F800000 ↔ m < 2 ^ 24 := by omega
      _ ↔ x < 2 ^ 128 - 2 ^ 103 := by rw [h.lt_iff, div_lt_iff₀ (ulp_pos _), hu]; norm_num
  · have hm := h.le_of_pos (by omega)
    have hx := (le_div_iff₀ (ulp_pos e)).1 (h.ge.resolve_left (by omega))
    have hu : 2 ^ 105 ≤ ulp e := (ulp_mono (by omega : 254 ≤ e)).trans_eq' (by norm_num [ulp_eq])
    exact iff_of_false (by rw [if_neg (by omega)]; omega) (by linarith)

end

theorem f32Sign_decimalToF32 (d : Decimal) : f32Sign (decimalToF32 d) = d.neg := by
  obtain ⟨hs, -⟩ := f32Nearest_sign_mag d.neg d.digits (10 ^ d.places)
  exact hs

/-- A decimal literal's magnitude bits are those of its rounding, or infinity's. -/
theorem f32Mag_decimalToF32 (d : Decimal) : ∃ e m : ℕ, RoundsTo ((d.digits : ℚ) / 10 ^ d.places) e m ∧
    f32Mag (decimalToF32 d) = min (magOf e m) 0x7F800000 := by
  obtain ⟨e, m, h, hmag⟩ := f32NearestMag_roundsTo d.digits (d := 10 ^ d.places) (by positivity)
  obtain ⟨-, hm⟩ := f32Nearest_sign_mag d.neg d.digits (10 ^ d.places)
  exact ⟨e, m, by exact_mod_cast h, hm.trans hmag⟩

/-- Settles O53: from 2^128 - 2^103 on the rounding has no finite pattern. -/
theorem decimalLiteralEdges : Obligations.DecimalLiteralEdges := by
  refine fun d => ⟨f32Sign_decimalToF32 d, fun hbig => ?_⟩
  obtain ⟨e, m, h, hmag⟩ := f32Mag_decimalToF32 d
  have hinf : ¬magOf e m < 0x7F800000 := fun hlt => (h.magOf_lt_iff.1 hlt).not_ge hbig
  rw [f32IsInf_iff_mag_eq, hmag]
  omega

/-! The values of the patterns, counted in steps -/

/-- The magnitude bits of m × 2^e units denote that many units. -/
theorem f32Units_of_mag_eq {b : Word} {e m : ℕ} (hmag : f32Mag b = magOf e m) (hm : m ≤ 2 ^ 24)
    (he : 0 < e → 2 ^ 23 ≤ m) : f32Units b = m * 2 ^ e := by
  have hF := f32Frac_lt b
  rw [f32Mag_eq_fields] at hmag
  unfold magOf at hmag
  unfold f32Units f32Signif f32Scale
  rcases Nat.lt_or_ge m (2 ^ 23) with hlo | hlo
  · have he0 : e = 0 := by omega
    rw [if_pos hlo] at hmag
    rw [if_pos (by omega), if_pos (by omega), he0]
    norm_num; omega
  · rw [if_neg (by omega)] at hmag
    have hE : f32Exp b ≠ 0 := by omega
    rw [if_neg hE, if_neg hE]
    rcases Nat.lt_or_ge m (2 ^ 24) with hhi | hhi
    · rw [(by omega : ((f32Exp b : ℤ) - 150 + 149).toNat = e), (by omega : 2 ^ 23 + f32Frac b = m)]
    · rw [(by omega : ((f32Exp b : ℤ) - 150 + 149).toNat = e + 1), (by omega : f32Frac b = 0),
        (by omega : m = 2 ^ 24)]
      ring

/-- A pattern's count of units is a multiple of 2^e, or the pattern lies below the binade of spacing 2^e. -/
theorem f32Units_dvd_or_lt (b : Word) (e : ℕ) : 2 ^ e ∣ f32Units b ∨ (0 < e ∧ f32Units b < 2 ^ 23 * 2 ^ e) := by
  have hM := f32Signif_lt b
  unfold f32Units
  generalize (f32Scale b + 149).toNat = p
  rcases Nat.lt_or_ge p e with hlt | hge
  · refine .inr ⟨by omega, ?_⟩
    calc f32Signif b * 2 ^ p < 2 ^ 24 * 2 ^ p := Nat.mul_lt_mul_of_pos_right hM (by positivity)
      _ = 2 ^ 23 * 2 ^ (p + 1) := by ring
      _ ≤ 2 ^ 23 * 2 ^ e := Nat.mul_le_mul_left _ (Nat.pow_le_pow_right (by norm_num) hlt)
  · exact .inl (Dvd.dvd.mul_left (pow_dvd_pow 2 hge) _)

/-- The last fraction bit is the parity of the magnitude bits. -/
theorem f32_getLsbD_zero_iff (b : Word) : b.getLsbD 0 = false ↔ f32Mag b % 2 = 0 := by
  have hb := f32_toNat_eq_sign_mag b
  rw [BitVec.getLsbD, Nat.testBit_zero, decide_eq_false_iff_not]
  split at hb <;> omega

/-- The factor of a sign bit. -/
def signOf (neg : Bool) : ℤ := if neg then -1 else 1

theorem signOf_cast (neg : Bool) : ((signOf neg : ℤ) : ℚ) = if neg then -1 else 1 := by
  cases neg <;> rfl

theorem abs_signOf_mul (neg : Bool) (x : ℚ) : |(signOf neg : ℚ) * x| = |x| := by
  cases neg <;> simp [signOf]

/-- A finite value counted in steps of `ulp e`. -/
theorem f32val_div_ulp {b : Word} {z : ℚ} (h : f32val b = some z) (e : ℕ) :
    z / ulp e = signOf (f32Sign b) * (f32Units b / 2 ^ e) := by
  rw [f32val_eq_units h, signOf_cast, ulp_eq, mul_div_assoc, div_div_div_cancel_right₀ (by norm_num)]

/-- A finite value is a whole number of steps of `ulp e`, or is below 2^23 steps. -/
theorem f32val_whole_or_lt {b : Word} {z : ℚ} (h : f32val b = some z) (e : ℕ) :
    (∃ j : ℤ, z / ulp e = j) ∨ (0 < e ∧ |z / ulp e| < 2 ^ 23) := by
  rw [f32val_div_ulp h e]
  rcases f32Units_dvd_or_lt b e with ⟨k, hk⟩ | ⟨he, hlt⟩
  · refine .inl ⟨signOf (f32Sign b) * k, ?_⟩
    rw [hk]; push_cast; field_simp
  · refine .inr ⟨he, ?_⟩
    rw [abs_signOf_mul, abs_of_nonneg (by positivity), div_lt_iff₀ (by positivity)]
    exact_mod_cast hlt

/-! Nearness -/

/-- An integer within 1/2 of r is as near to r as any other integer, and only at 1/2 can another be as near. -/
theorem int_nearest {r : ℚ} {i : ℤ} (h : |r - i| ≤ 1 / 2) (j : ℤ) :
    |r - i| ≤ |r - j| ∧ (|r - j| = |r - i| → j ≠ i → |r - i| = 1 / 2) := by
  by_cases hji : j = i
  · exact ⟨by rw [hji], fun _ hne => absurd hji hne⟩
  · have hone : (1 : ℚ) ≤ |(j : ℚ) - i| := by exact_mod_cast Int.one_le_abs (sub_ne_zero.2 hji)
    have htri : |(j : ℚ) - i| ≤ |r - i| + |r - j| := by
      rw [abs_sub_comm r j, add_comm]
      exact abs_sub_le _ _ _
    exact ⟨by linarith, fun heq _ => by linarith⟩

/-- An integer within 1/2 of r is as near to r as 2^23 of r's sign is, where r is beyond that. -/
theorem abs_sub_le_abs_sub_two_pow {r : ℚ} {i : ℤ} (h : |r - i| ≤ 1 / 2) (hr : 2 ^ 23 ≤ |r|) :
    |r - i| ≤ |r| - 2 ^ 23 := by
  rcases abs_cases r with ⟨habs, -⟩ | ⟨habs, -⟩ <;> rw [habs] at hr ⊢
  · obtain ⟨hle, -⟩ := int_nearest h (2 ^ 23)
    rw [Int.cast_pow, Int.cast_ofNat, abs_of_nonneg (a := r - 2 ^ 23) (by linarith)] at hle
    exact hle
  · obtain ⟨hle, -⟩ := int_nearest h (-2 ^ 23)
    rw [Int.cast_neg, Int.cast_pow, Int.cast_ofNat, abs_of_nonpos (a := r - -2 ^ 23) (by linarith)] at hle
    linarith

/-- A value y of a whole number of steps within half a step of q is as near to q as any finite value z, and only at half a step
can another be as near. A value off the whole steps is below the binade of q, so it is further away than 2^23 steps are. -/
theorem f32_nearest {q y z : ℚ} {i : ℤ} {e : ℕ} {c : Word} (hy : y / ulp e = i) (h : |q / ulp e - i| ≤ 1 / 2)
    (hq : e = 0 ∨ 2 ^ 23 ≤ |q / ulp e|) (hz : f32val c = some z) :
    |q - y| ≤ |q - z| ∧ (|q - z| = |q - y| → z ≠ y → |q / ulp e - i| = 1 / 2) := by
  have hu := ulp_pos e
  have hdist (v : ℚ) : |q / ulp e - v / ulp e| = |q - v| / ulp e := by
    rw [← sub_div, abs_div, abs_of_pos hu]
  rw [← div_le_div_iff_of_pos_right hu, ← div_left_inj' hu.ne', ← hdist, ← hdist, ← (div_left_inj' hu.ne').ne,
    hy]
  rcases f32val_whole_or_lt hz e with ⟨j, hj⟩ | ⟨he, hlt⟩
  · rw [hj, Ne, Int.cast_inj]
    exact int_nearest h j
  · have hnear := abs_sub_le_abs_sub_two_pow h (hq.resolve_left he.ne')
    have hfar := abs_sub_abs_le_abs_sub (q / ulp e) (z / ulp e)
    exact ⟨by linarith, fun heq _ => by linarith⟩

/-- A literal below the bound has a finite pattern, whose value is that of its rounding and whose last bit is that of m. -/
theorem decimalToF32_finite {d : Decimal} (hlt : (d.digits : ℚ) / 10 ^ d.places < 2 ^ 128 - 2 ^ 103) :
    ∃ (e m : ℕ) (y : ℚ), RoundsTo ((d.digits : ℚ) / 10 ^ d.places) e m ∧ f32val (decimalToF32 d) = some y ∧
      y / ulp e = (signOf d.neg * m : ℤ) ∧ ((decimalToF32 d).getLsbD 0 = false ↔ m % 2 = 0) := by
  obtain ⟨e, m, h, hmag⟩ := f32Mag_decimalToF32 d
  have hfin := h.magOf_lt_iff.2 hlt
  rw [min_eq_left hfin.le] at hmag
  obtain ⟨y, hy⟩ := (f32val_isSome_iff _).2 ((f32Exp_ne_iff_mag_lt _).2 (hmag ▸ hfin))
  refine ⟨e, m, y, h, hy, ?_, by rw [f32_getLsbD_zero_iff, hmag, magOf_mod_two]⟩
  rw [f32val_div_ulp hy, f32Sign_decimalToF32, f32Units_of_mag_eq hmag h.le h.le_of_pos]
  push_cast
  rw [mul_div_cancel_right₀ _ (by positivity)]

/-- Settles O52: in steps of the spacing around the literal, its pattern's value is the integer nearest to it. -/
theorem decimalLiteralIsNearest : Obligations.DecimalLiteralIsNearest := by
  intro d q hq hlt
  rw [← signOf_cast, mul_div_assoc] at hq
  have hx0 : 0 ≤ (d.digits : ℚ) / 10 ^ d.places := by positivity
  rw [hq, abs_signOf_mul, abs_of_nonneg hx0] at hlt
  obtain ⟨e, m, y, h, hy, hyi, hbit⟩ := decimalToF32_finite hlt
  generalize (d.digits : ℚ) / 10 ^ d.places = x at *
  have hnear : |q / ulp e - (signOf d.neg * m : ℤ)| = |x / ulp e - m| := by
    push_cast
    rw [hq, mul_div_assoc, ← mul_sub, abs_signOf_mul]
  have hbinade : |q / ulp e| = x / ulp e := by
    rw [hq, mul_div_assoc, abs_signOf_mul, abs_of_nonneg (div_nonneg hx0 (ulp_pos e).le)]
  refine ⟨y, hy, fun c z hz => ?_⟩
  obtain ⟨hle, htie⟩ := f32_nearest hyi (hnear ▸ h.near) (hbinade ▸ h.ge) hz
  exact ⟨hle, fun heq hne => hbit.2 (h.even (hnear ▸ htie heq hne))⟩

end Sys2Proof.Proofs
end

section
/-! PROOF. The statements of spec/40_codec.md on DEC (R51 to R55). DEC's outputs are a function of the integer that the assembled
register value holds, and that integer is the signed reading of bits 15..4. -/

namespace Sys2Proof.Proofs

open Sys2Proof Sys2Proof.Machine Sys2Proof.Laws

/-! What DEC lets the host observe (R51) -/

theorem exec_dec_present {s : State} (h : s.inp.present = true) :
    exec .dec s =
      .next (s.observing ⟨0b00#2, f32OfK (regK (joinBytes s.inp.bin0 s.inp.bin1)), 0#16, 0#8, 0#8⟩) := by
  rw [exec_dec, decOut_present _ h, decK_eq_regK]

theorem exec_dec_absent {s : State} (h : s.inp.present = false) :
    exec .dec s = .next (s.observing ⟨0b01#2, Config.floatSentinel, 0#16, 0#8, 0#8⟩) := by
  rw [exec_dec, decOut_absent _ h]

/-- DEC of the bytes `b0` and `b1`, on any state that presents them, drives their integer's pattern `f`. -/
theorem exec_dec_bytes {s : State} {b0 b1 : Byte} {f : Word} (hf : f32OfK (regK (joinBytes b0 b1)) = f)
    (hp : s.inp.present = true) (h0 : s.inp.bin0 = b0) (h1 : s.inp.bin1 = b1) :
    exec .dec s = .next (s.observing ⟨0b00#2, f, 0#16, 0#8, 0#8⟩) := by
  rw [exec_dec_present hp, h0, h1, hf]

/-- Settles O21: DEC's k is its register value's integer; the byte pairs are evaluated. -/
theorem decResult : Obligations.DecResult := by
  refine ⟨rfl, fun s => ⟨fun hp => ?_, exec_dec_absent, exec_dec_bytes (by decide), exec_dec_bytes (by decide),
    exec_dec_bytes (by decide), exec_dec_bytes (by decide)⟩⟩
  rw [exec_dec_present hp, regK_eq_intField_toInt]
  rfl

/-! The readings of DEC's shift (R52) -/

/-- DEC's `sh16` is bits 15..4, sign-extended: both have the signed reading k. -/
theorem decSh16_eq_signExtend (b0 b1 : Byte) : decSh16 b0 b1 = (intField (joinBytes b0 b1)).signExtend 16 :=
  BitVec.toInt_inj.1 (decK_eq_regK b0 b1)

/-- The arithmetic shift by 4 has the signed reading k. -/
theorem sshiftRight_four_eq_signExtend (r : Half) : r.sshiftRight 4 = (intField r).signExtend 16 := by
  refine BitVec.toInt_inj.1 (Eq.trans ?_ (regK_eq r).symm)
  have := r.isLt
  rw [BitVec.toInt_sshiftRight, Int.shiftRight_eq_div_pow, BitVec.toInt_eq_toNat_cond]
  split <;> split <;> omega

/-- The logical shift by 4 is bits 15..4, extended by zeros. -/
theorem ushiftRight_four_eq_setWidth (r : Half) : r >>> 4 = (intField r).setWidth 16 := by
  apply BitVec.eq_of_toNat_eq
  have := r.isLt
  rw [BitVec.toNat_setWidth, intField_toNat, BitVec.toNat_ushiftRight, Nat.shiftRight_eq_div_pow]
  omega

/-- DEC's `sh16` by its definition: the logical shift, and the four top bits set for a negative value. -/
theorem decSh16_eq_ushiftRight_or (b0 b1 : Byte) :
    decSh16 b0 b1 = (joinBytes b0 b1 >>> 4) ||| (if b0.getLsbD 7 then 0xF000#16 else 0x0000#16) := by
  rw [ushiftRight_four_eq_setWidth]
  unfold decSh16 ext16
  cases b0.getLsbD 7
  · exact BitVec.or_zero.symm
  · rfl

/-- Settles O22: the arithmetic reading is the sign extension, and in both readings the top bits are set once. -/
theorem decShiftReadingsAgree : Obligations.DecShiftReadingsAgree := by
  intro b0 b1
  have harith : decSh16 b0 b1 = (joinBytes b0 b1).sshiftRight 4 := by
    rw [decSh16_eq_signExtend, sshiftRight_four_eq_signExtend]
  refine ⟨harith, decSh16_eq_ushiftRight_or b0 b1, decSh16_eq_signExtend b0 b1, ?_⟩
  change (joinBytes b0 b1).sshiftRight 4 ||| _ = _
  rw [← harith, decSh16_eq_ushiftRight_or, BitVec.or_assoc, BitVec.or_self]

/-! DEC ignores the low 4 bits (R53) -/

theorem joinBytes_and_F0 (b0 b1 : Byte) : joinBytes b0 (b1 &&& 0xF0#8) = joinBytes b0 b1 &&& 0xFFF0#16 := by
  have hmask : 0xFFF0#16 = (BitVec.allOnes 8 ++ 0xF0#8 : Half) := by decide
  unfold joinBytes
  rw [hmask, BitVec.and_append, BitVec.and_allOnes]

theorem regK_and_highMask (r : Half) : regK (r &&& 0xFFF0#16) = regK r := by
  rw [regK_eq_iff_intField_eq, and_highMask, intField_append]

theorem decOut_and_F0 (fs : Word) (i : In) : decOut fs { i with bin1 := i.bin1 &&& 0xF0#8 } = decOut fs i := by
  have hk : decK i.bin0 (i.bin1 &&& 0xF0#8) = decK i.bin0 i.bin1 := by
    rw [decK_eq_regK, decK_eq_regK, joinBytes_and_F0, regK_and_highMask]
  unfold decOut
  rw [hk]

/-- Settles O23: the register value's integer does not see the low 4 bits. -/
theorem decIgnoresLowBits : Obligations.DecIgnoresLowBits := by
  refine fun s => ⟨⟨_, exec_dec s, ?_⟩, exec_dec_bytes (by decide), exec_dec_bytes (by decide)⟩
  rw [Observes, exec_dec, presenting_inp, decOut_and_F0]

/-! The value of a DEC result (R54, R55) -/

/-- The pattern of the integer that a register value holds denotes the register value's temperature. -/
theorem f32val_f32OfK_regK (r : Half) : f32val (f32OfK (regK r)) = some ((regK r : ℚ) / 16) := by
  obtain ⟨hlo, hhi⟩ := regK_range r
  exact f32val_f32OfK (by omega)

/-- A finite pattern is no NaN and no infinity (R45). -/
theorem not_nan_not_inf_of_exp_ne {b : Word} (h : f32Exp b ≠ 255) : f32IsNaN b = false ∧ f32IsInf b = false := by
  unfold f32IsNaN f32IsInf
  rw [beq_false_of_ne h]
  exact ⟨rfl, rfl⟩

/-- `f32OfK` gives no subnormal: the fraction is 0 for k = 0, and the exponent field is not 0 otherwise (R47). -/
theorem f32OfK_not_subnormal {k : ℤ} (hk : k.natAbs ≤ 2048) : ¬(f32Exp (f32OfK k) = 0 ∧ f32Frac (f32OfK k) ≠ 0) := by
  by_cases h0 : k = 0
  · subst h0; decide
  · obtain ⟨-, hE, -⟩ := f32OfK_fields h0 hk
    omega

/-- Settles O24: the result is `f32OfK` of an integer in [-2048, 2047]. -/
theorem decAlwaysSucceeds : Obligations.DecAlwaysSucceeds := by
  intro s hp
  obtain ⟨hlo, hhi⟩ := regK_range (joinBytes s.inp.bin0 s.inp.bin1)
  have hk : (regK (joinBytes s.inp.bin0 s.inp.bin1)).natAbs ≤ 2048 := by omega
  have hval := f32val_f32OfK hk
  obtain ⟨hnan, hinf⟩ := not_nan_not_inf_of_exp_ne ((f32val_isSome_iff _).1 ⟨_, hval⟩)
  refine ⟨_, _, exec_dec_present hp, rfl, hlo, hhi, ?_, hnan, hinf, f32OfK_ne_negZero hk, f32OfK_not_subnormal hk, ?_⟩
  · rw [hval, mul_one_div]
  · intro h0 h1
    rw [hval, h0, h1, (by decide : regK (joinBytes 0xC9#8 0x00#8) = -880)]
    norm_num

/-- Settles O25: the result's value is k / 16, the register value's own. -/
theorem decMultipliesExactly : Obligations.DecMultipliesExactly := by
  intro s hp
  refine ⟨_, exec_dec_present hp, ?_⟩
  rw [f32val_f32OfK_regK, ← mul_one_div]
  rfl

end Sys2Proof.Proofs
end

section
/-! PROOF. The statements of spec/40_codec.md on ENC (R56 to R63). On an input of value x in range, ENC's sign and integer are
x < 0 and 16 x truncated; its register value is the integer's, but for the two cases in which forcing bit 15 changes it. -/

namespace Sys2Proof.Proofs

open Sys2Proof Sys2Proof.Machine Sys2Proof.Laws

/-! Register values with their low 4 bits 0: an integer times 16 (R42, R59) -/

/-- Times 16 puts the integer in bits 15..4, above zeros. -/
theorem u16_mul_sixteen (k : ℤ) : u16 (k * 16) = BitVec.ofInt 12 k ++ 0#4 := by
  apply BitVec.eq_of_toNat_eq
  unfold u16
  rw [BitVec.toNat_append, BitVec.toNat_ofInt, BitVec.toNat_ofInt, Nat.shiftLeft_eq, BitVec.toNat_zero, Nat.or_zero]
  omega

theorem intField_u16 (k : ℤ) : intField (u16 (k * 16)) = BitVec.ofInt 12 k := by
  rw [u16_mul_sixteen, intField_append]

theorem low_u16 (k : ℤ) : (u16 (k * 16)).extractLsb' 0 4 = 0#4 := by
  rw [u16_mul_sixteen, BitVec.extractLsb'_append_eq_right]

theorem toNat_u16 (k : ℤ) : ((u16 (k * 16)).toNat : ℤ) = k * 16 % 65536 := by
  unfold u16
  rw [BitVec.toNat_ofInt]
  omega

/-- An integer of the field's range is read back. -/
theorem regK_u16 {k : ℤ} (hlo : -2048 ≤ k) (hhi : k ≤ 2047) : regK (u16 (k * 16)) = k := by
  rw [regK_eq_intField_toInt, intField_u16]
  exact BitVec.toInt_ofInt_eq_self (by decide) hlo (by omega)

/-- A pattern with its low 4 bits cleared is its integer times 16. -/
theorem u16_regK (r : Half) : u16 (regK r * 16) = r &&& 0xFFF0#16 := by
  rw [u16_mul_sixteen, regK_eq_intField_toInt, BitVec.ofInt_toInt, and_highMask]

theorem u16_regK_of_low {r : Half} (h : r.extractLsb' 0 4 = 0#4) : u16 (regK r * 16) = r := by
  rw [u16_regK, and_highMask, ← h, intField_append_low]

/-- LOW4 masks to 0 exactly the patterns whose low 4 bits are 0. -/
theorem and_low4_eq_zero_iff (r : Half) : r &&& 0x000F#16 = 0#16 ↔ r.extractLsb' 0 4 = 0#4 := by
  rw [← wellFormedReg_iff]
  exact beq_iff_eq.symm

/-! ENC's range check (R57) -/

/-- The bit test passes exactly the patterns with a value in range. -/
theorem encInRange_iff_exists (b : Word) : encInRange b = true ↔ ∃ x : ℚ, f32val b = some x ∧ -40 ≤ x ∧ x ≤ 128 := by
  constructor
  · intro hr
    have hE := f32Exp_le_of_encInRange hr
    obtain ⟨x, hx⟩ := (f32val_isSome_iff b).2 (by omega)
    exact ⟨x, hx, (encInRange_iff_val hx).1 hr⟩
  · rintro ⟨x, hx, hrange⟩
    exact (encInRange_iff_val hx).2 hrange

theorem encInRange_of_nonneg_sign {b : Word} (hs : f32Sign b = false) : encInRange b = true ↔ f32Mag b ≤ posLimit := by
  simp [encInRange, hs]

theorem encInRange_of_neg_sign {b : Word} (hs : f32Sign b = true) : encInRange b = true ↔ f32Mag b ≤ negLimit := by
  simp [encInRange, hs]

/-- The sign bit bounds the value by 0; a zero has either sign. -/
theorem nonneg_of_sign {b : Word} {x : ℚ} (h : f32val b = some x) (hs : f32Sign b = false) : 0 ≤ x := by
  rw [f32val_eq_units h, hs, if_neg Bool.false_ne_true, one_mul]
  positivity

theorem nonpos_of_sign {b : Word} {x : ℚ} (h : f32val b = some x) (hs : f32Sign b = true) : x ≤ 0 := by
  rw [f32val_eq_units h, hs, if_pos rfl, neg_one_mul, neg_nonpos]
  positivity

theorem encInRange_false_of_exp {b : Word} (h : f32Exp b = 255) : encInRange b = false := by
  refine Bool.eq_false_iff.2 fun hr => ?_
  have := f32Exp_le_of_encInRange hr
  omega

theorem exec_enc_inRange {s : State} (h : encInRange s.inp.fin = true) :
    exec .enc s = .next (s.observing ⟨0b00#2, 0#32, encR s.inp.fin, 0#8, 0#8⟩) := by
  rw [exec_enc, encOut_inRange h]

theorem exec_enc_outOfRange {s : State} (h : encInRange s.inp.fin = false) :
    exec .enc s = .next (s.observing ⟨0b10#2, 0#32, 0x00FF#16, 0#8, 0#8⟩) := by
  rw [exec_enc, encOut_outOfRange h]

/-- ENC of the pattern `b`, on any state that presents it. -/
theorem exec_enc_bits {s : State} {b : Word} {r : Half} (hb : encInRange b = true ∧ encR b = r) (h : s.inp.fin = b) :
    exec .enc s = .next (s.observing ⟨0b00#2, 0#32, r, 0#8, 0#8⟩) := by
  obtain ⟨hr, rfl⟩ := hb
  subst h
  exact exec_enc_inRange hr

/-- Settles O28: both forms of the range check bound the count of units; a NaN or an infinity has the exponent field 255. -/
theorem encRangeCheck : Obligations.EncRangeCheck := by
  refine ⟨encInRange_iff_exists, fun b x h hs => ?_, fun b x h hs => ?_, fun b h => ?_, fun b h => ?_,
    fun s => exec_enc_outOfRange, by decide, by decide, by decide, by decide⟩
  · have h0 := nonneg_of_sign h hs
    exact (and_iff_right (by linarith)).symm.trans ((encInRange_iff_val h).symm.trans (encInRange_of_nonneg_sign hs))
  · have h0 := nonpos_of_sign h hs
    exact (and_iff_left (by linarith)).symm.trans ((encInRange_iff_val h).symm.trans (encInRange_of_neg_sign hs))
  · have hmag : (b.extractLsb' 0 31).toNat = _ := f32Mag_eq_fields b
    simp only [f32IsNaN, Bool.and_eq_true, beq_iff_eq, bne_iff_ne] at h
    obtain ⟨hE, hF⟩ := h
    exact ⟨by omega, encInRange_false_of_exp hE⟩
  · have hmag := (f32IsInf_iff_mag_eq b).1 h
    simp only [f32IsInf, Bool.and_eq_true, beq_iff_eq] at h
    obtain ⟨hE, -⟩ := h
    exact ⟨hmag, encInRange_false_of_exp hE⟩

/-- Settles O27: the patterns are evaluated. -/
theorem encCornerCases : Obligations.EncCornerCases := by
  refine ⟨fun s => ?_, fun s hb => exec_enc_outOfRange ?_⟩
  · rw [List.forall_mem_cons, List.forall_mem_cons, List.forall_mem_cons, List.forall_mem_cons, List.forall_mem_singleton]
    exact ⟨exec_enc_bits (by decide), exec_enc_bits (by decide), exec_enc_bits (by decide), exec_enc_bits (by decide),
      exec_enc_bits (by decide)⟩
  · simp only [List.mem_cons, List.not_mem_nil, or_false] at hb
    rcases hb with h | h | h | h | h | h | h | h | h <;> rw [h] <;> decide

/-! ENC's sign and integer, from the value (R58) -/

theorem encNeg_eq_decide {b : Word} {x : ℚ} (h : f32val b = some x) : encNeg b = decide (x < 0) := by
  have hu : f32Units b = 0 ↔ x = 0 := by
    rw [← abs_eq_zero, f32val_abs h, div_eq_zero_iff, or_iff_left (by norm_num), Nat.cast_eq_zero]
  rw [encNeg_eq_units]
  by_cases hx : x = 0
  · simp [hu, hx]
  · simp [hu, hx, f32Sign_eq_decide_neg h hx]

/-- ENC's `mag` is 16 |x| rounded down. -/
theorem encMag_eq_floor {b : Word} {x : ℚ} (h : f32val b = some x) (hr : encInRange b = true) :
    (encMag b : ℤ) = ⌊16 * |x|⌋ := by
  have hsteps : 16 * ((f32Units b : ℚ) / 2 ^ 149) = (f32Units b : ℚ) / ((2 ^ 145 : ℕ) : ℚ) := by
    push_cast; ring
  rw [encMag_eq_units_div hr, f32val_abs h, hsteps, Rat.floor_natCast_div_natCast, Int.natCast_div]

section
variable {b : Word} {x : ℚ} (h : f32val b = some x) (hlo : -40 ≤ x) (hhi : x ≤ 128)
include h hlo hhi

theorem encK_eq_floor (h0 : 0 ≤ x) : encK b = ⌊16 * x⌋ := by
  unfold encK
  rw [encNeg_eq_decide h, decide_eq_false h0.not_gt, if_neg Bool.false_ne_true,
    encMag_eq_floor h ((encInRange_iff_val h).2 ⟨hlo, hhi⟩), abs_of_nonneg h0]

theorem encK_eq_ceil (h0 : x < 0) : encK b = ⌈16 * x⌉ := by
  unfold encK
  rw [encNeg_eq_decide h, decide_eq_true h0, if_pos rfl,
    encMag_eq_floor h ((encInRange_iff_val h).2 ⟨hlo, hhi⟩), abs_of_neg h0, mul_neg, Int.floor_neg, neg_neg]

theorem encK_eq_trunc : encK b = truncToward0 (x / (1 / 16)) := by
  have hdiv : x / (1 / 16) = 16 * x := div_res x
  rw [hdiv]
  unfold truncToward0
  by_cases h0 : 0 ≤ x
  · rw [encK_eq_floor h hlo hhi h0, if_pos (by linarith)]
  · rw [encK_eq_ceil h hlo hhi (lt_of_not_ge h0), if_neg (by linarith)]

end

/-- Settles O29: the integer is 16 |x| rounded down, with the sign applied after. -/
theorem encIntegerTruncates : Obligations.EncIntegerTruncates := by
  refine ⟨fun b x h hlo hhi => ?_, by decide, by decide⟩
  have hr := (encInRange_iff_val h).2 ⟨hlo, hhi⟩
  have hE := f32Exp_le_of_encInRange hr
  obtain ⟨hneg, hpos⟩ := encK_range hr
  rw [encNeg_eq_decide h, decide_eq_true_iff] at hneg
  rw [encNeg_eq_decide h, decide_eq_false_iff_not, not_lt] at hpos
  refine ⟨encK_eq_trunc h hlo hhi, div_res x, ?_, fun h0 => ⟨encK_eq_floor h hlo hhi h0, hpos h0⟩,
    fun h0 => ⟨encK_eq_ceil h hlo hhi h0, hneg h0⟩⟩
  unfold f32Scale
  split <;> omega

/-! ENC's register value: t with bit 15 forced (R59, R60) -/

theorem encT_eq (b : Word) : encT b = u16 (encK b * 16) := rfl

/-- Forcing changes bit 15 alone. -/
theorem encR_getLsbD (b : Word) {i : ℕ} (hi : i < 16) :
    (encR b).getLsbD i = if i = 15 then encNeg b else (encT b).getLsbD i := by
  have hsign : sign16.getLsbD i = decide (15 = i) := by
    rw [(by decide : sign16 = BitVec.twoPow 16 15), BitVec.getLsbD_twoPow]
    rfl
  unfold encR
  cases encNeg b
  · rw [if_neg Bool.false_ne_true, BitVec.getLsbD_and, BitVec.getLsbD_not, hsign, decide_eq_true hi]
    by_cases h15 : i = 15 <;> simp [h15, eq_comm]
  · rw [if_pos rfl, BitVec.getLsbD_or, hsign]
    by_cases h15 : i = 15 <;> simp [h15, eq_comm]

theorem encR_getLsbD_15 (b : Word) : (encR b).getLsbD 15 = encNeg b :=
  encR_getLsbD b (by norm_num)

theorem encR_extractLsb'_low (b : Word) {n : ℕ} (hn : n ≤ 15) : (encR b).extractLsb' 0 n = (encT b).extractLsb' 0 n := by
  refine BitVec.eq_of_getLsbD_eq fun i hi => ?_
  rw [BitVec.getLsbD_extractLsb', BitVec.getLsbD_extractLsb', encR_getLsbD b (by omega), if_neg (by omega)]

/-- Forcing leaves t as it is exactly when bit 15 of t is the sign already. -/
theorem encR_eq_encT_iff (b : Word) : encR b = encT b ↔ (encT b).getLsbD 15 = encNeg b := by
  constructor
  · intro h
    rw [← h, encR_getLsbD_15]
  · intro h
    refine BitVec.eq_of_getLsbD_eq fun i hi => ?_
    rw [encR_getLsbD b hi, ← h]
    split
    · next h15 => rw [h15]
    · rfl

theorem encT_low (b : Word) : (encT b).extractLsb' 0 4 = 0#4 := low_u16 _

theorem encR_low (b : Word) : (encR b).extractLsb' 0 4 = 0#4 := by
  rw [encR_extractLsb'_low b (by norm_num), encT_low]

/-- Bit 15 of an integer times 16 is the integer's sign, except for 2048. -/
theorem u16_getLsbD_15 {k : ℤ} (hlo : -2048 ≤ k) (hhi : k ≤ 2047) : (u16 (k * 16)).getLsbD 15 = decide (k < 0) := by
  have hN := toNat_u16 k
  rw [Bool.eq_iff_iff, getLsbD_15_iff, decide_eq_true_iff]
  omega

/-- ENC's cases, by the value `x` of the pattern `b` (R60, R64): its integer, and its register value. -/
inductive EncCase (b : Word) (x : ℚ) : Prop where
  /-- Rounded down. -/
  | nonneg (h0 : 0 ≤ x) (h128 : x < 128) (hk : encK b = ⌊16 * x⌋) (hlo : 0 ≤ encK b) (hhi : encK b ≤ 2047)
      (hr : encR b = encT b)
  /-- Rounded up. -/
  | negative (hx : x ≤ -1 / 16) (hk : encK b = ⌈16 * x⌉) (hlo : -640 ≤ encK b) (hhi : encK b ≤ -1)
      (hr : encR b = encT b)
  /-- R60 (a): truncated to 0 and negative. -/
  | discontinuity (hlo : -1 / 16 < x) (hneg : x < 0) (hk : encK b = 0) (ht : encT b = 0x0000#16)
      (hr : encR b = 0x8000#16)
  /-- R60 (b): the upper end of the range. -/
  | top (hx : x = 128) (hk : encK b = 2048) (ht : encT b = 0x8000#16) (hr : encR b = 0x0000#16)

section
variable {b : Word} {x : ℚ} (h : f32val b = some x) (hlo : -40 ≤ x) (hhi : x ≤ 128)
include h hlo hhi

theorem encCase_of_nonneg (h0 : 0 ≤ x) : EncCase b x := by
  have hk := encK_eq_floor h hlo hhi h0
  have hneg : encNeg b = false := by rw [encNeg_eq_decide h, decide_eq_false h0.not_gt]
  obtain ⟨-, hpos⟩ := encK_range ((encInRange_iff_val h).2 ⟨hlo, hhi⟩)
  obtain ⟨hk0, hk2048⟩ := hpos hneg
  rcases lt_or_eq_of_le hhi with hx | hx
  · have hlt : encK b < 2048 := by rw [hk, Int.floor_lt]; push_cast; linarith
    refine .nonneg h0 hx hk hk0 (by omega) ((encR_eq_encT_iff b).2 ?_)
    rw [encT_eq, u16_getLsbD_15 (by omega) (by omega), hneg, decide_eq_false (by omega)]
  · have hk' : encK b = 2048 := by rw [hk, hx]; norm_num
    have ht : encT b = 0x8000#16 := by rw [encT_eq, hk']; decide
    refine .top hx hk' ht ?_
    rw [encR, hneg, if_neg Bool.false_ne_true, ht]; decide

theorem encCase_of_neg (h0 : x < 0) : EncCase b x := by
  have hk := encK_eq_ceil h hlo hhi h0
  have hneg : encNeg b = true := by rw [encNeg_eq_decide h, decide_eq_true h0]
  obtain ⟨hrange, -⟩ := encK_range ((encInRange_iff_val h).2 ⟨hlo, hhi⟩)
  obtain ⟨hk640, hk0⟩ := hrange hneg
  rcases le_or_gt x (-1 / 16) with hx | hx
  · have hle : encK b ≤ -1 := by rw [hk, Int.ceil_le]; push_cast; linarith
    refine .negative hx hk hk640 hle ((encR_eq_encT_iff b).2 ?_)
    rw [encT_eq, u16_getLsbD_15 (by omega) (by omega), hneg, decide_eq_true (by omega)]
  · have hk' : encK b = 0 := by rw [hk, Int.ceil_eq_iff]; push_cast; constructor <;> linarith
    have ht : encT b = 0x0000#16 := by rw [encT_eq, hk']; decide
    refine .discontinuity hx h0 hk' ht ?_
    rw [encR, hneg, if_pos rfl, ht]; decide

theorem encCase : EncCase b x :=
  (le_or_gt 0 x).elim (encCase_of_nonneg h hlo hhi) (encCase_of_neg h hlo hhi)

end

/-- ENC on a value in range succeeds. -/
theorem exec_enc_val {s : State} {x : ℚ} (h : f32val s.inp.fin = some x) (hlo : -40 ≤ x) (hhi : x ≤ 128) :
    exec .enc s = .next (s.observing ⟨0b00#2, 0#32, encR s.inp.fin, 0#8, 0#8⟩) :=
  exec_enc_inRange ((encInRange_iff_val h).2 ⟨hlo, hhi⟩)

/-- Settles O26: ENC's sign and integer are those of the real value. -/
theorem encMeetsAlgorithm : Obligations.EncMeetsAlgorithm := by
  refine ⟨rfl, fun s => ⟨fun x h hlo hhi => ?_, fun hout => ?_⟩⟩
  · have hr : encR s.inp.fin = if x < 0 then encT s.inp.fin ||| 0x8000#16 else encT s.inp.fin &&& 0x7FFF#16 := by
      unfold encR
      rw [encNeg_eq_decide h]
      simp only [decide_eq_true_iff]
      rfl
    rw [exec_enc_val h hlo hhi, hr, encT_eq, encK_eq_trunc h hlo hhi]
    rfl
  · rw [← encInRange_iff_exists, Bool.not_eq_true] at hout
    exact exec_enc_outOfRange hout

/-- Settles O30: t is the integer's low 12 bits above zeros; of the integers only that of 128 is 2048. -/
theorem encLeftJustifies : Obligations.EncLeftJustifies := by
  intro b x h hlo hhi
  have hN : ((encT b).toNat : ℤ) = encK b * 16 % 65536 := toNat_u16 (encK b)
  refine ⟨rfl, intField_u16 _, encT_low b, fun h0 h1 => ⟨by omega, by omega, ?_⟩,
    fun h0 h1 => ⟨by omega, by omega, by omega, ?_⟩, fun hk => ?_⟩
  · rw [encT_eq, u16_getLsbD_15 (by omega) h1, decide_eq_false (by omega)]
  · rw [encT_eq, u16_getLsbD_15 (by omega) (by omega), decide_eq_true (by omega)]
  · cases encCase h hlo hhi with
    | top hx _ ht _ => exact ⟨hx, ht⟩
    | _ => omega

/-- Settles O31: bit 15 of t is the sign of x in all but the two cases of the rule. -/
theorem encForcesSignBit : Obligations.EncForcesSignBit := by
  refine ⟨fun s x h hlo hhi => ⟨_, exec_enc_val h hlo hhi, rfl, ?_, encR_extractLsb'_low _ le_rfl, ?_⟩,
    fun s hp => ⟨fun h0 h1 => ⟨_, exec_dec_bytes rfl hp h0 h1, ?_⟩, fun h0 h1 => ⟨_, exec_dec_bytes rfl hp h0 h1, ?_⟩⟩⟩
  · exact (encR_getLsbD_15 _).trans (encNeg_eq_decide h)
  · cases encCase h hlo hhi with
    | nonneg h0 h128 _ _ _ hr =>
      refine ⟨iff_of_false (not_not.2 hr) ?_, by intros; linarith, by intros; linarith⟩
      rintro (⟨-, hneg⟩ | rfl) <;> linarith
    | negative hx _ _ _ hr =>
      refine ⟨iff_of_false (not_not.2 hr) ?_, by intros; linarith, by intros; linarith⟩
      rintro (⟨hgt, -⟩ | rfl) <;> linarith
    | discontinuity hgt hneg _ ht hr =>
      refine ⟨iff_of_true ?_ (.inl ⟨hgt, hneg⟩), fun _ _ => ⟨ht, hr⟩, by intros; linarith⟩
      change encR _ ≠ _
      rw [hr, ht]; decide
    | top hx _ ht hr =>
      refine ⟨iff_of_true ?_ (.inr hx), by intros; linarith, fun _ => ⟨ht, hr⟩⟩
      change encR _ ≠ _
      rw [hr, ht]; decide
  · rw [f32val_f32OfK_regK, (by decide : regK (joinBytes 0x80#8 0x00#8) = -2048)]; norm_num
  · rw [f32val_f32OfK_regK, (by decide : regK (joinBytes 0x00#8 0x00#8) = 0)]; norm_num

/-- Under OK the input was in range, and the outputs are ENC's result. -/
theorem exec_enc_ok {s : State} {o : Out} (h : exec .enc s = .next (s.observing o)) (hok : o.status = 0b00#2) :
    encInRange s.inp.fin = true ∧ o = ⟨0b00#2, 0#32, encR s.inp.fin, 0#8, 0#8⟩ := by
  cases hr : encInRange s.inp.fin
  · rw [exec_enc_outOfRange hr, Host.Outcome.next.injEq, observing_inj] at h
    subst h
    exact absurd hok (by decide)
  · rw [exec_enc_inRange hr, Host.Outcome.next.injEq, observing_inj] at h
    exact ⟨rfl, h.symm⟩

/-- Settles O33: t is a multiple of 16, and forcing bit 15 leaves the low bits. -/
theorem encLowBitsAreZero : Obligations.EncLowBitsAreZero := by
  intro s o h hok
  obtain ⟨-, rfl⟩ := exec_enc_ok h hok
  exact ⟨(and_low4_eq_zero_iff _).2 (encR_low _), (and_low4_eq_zero_iff _).2 (encT_low _)⟩

/-- The negative subnormals are in range, and their count of units is less than a step of 1/16. -/
theorem negSubnormal_facts {b : Word} (hlo : 0x80000001#32 ≤ b) (hhi : b ≤ 0x807FFFFF#32) :
    encInRange b = true ∧ encNeg b = true ∧ encK b = 0 := by
  have hb := f32_toNat_eq_sign_mag b
  have hmag : f32Mag b < 2 ^ 31 := BitVec.isLt _
  rw [BitVec.le_def] at hlo hhi
  simp only [BitVec.toNat_ofNat] at hlo hhi
  have hs : f32Sign b = true := by
    by_contra hs
    rw [if_neg hs] at hb
    omega
  rw [hs, if_pos rfl] at hb
  have hr : encInRange b = true := (encInRange_of_neg_sign hs).2 (by unfold negLimit; omega)
  have hneg : encNeg b = true := by simp only [encNeg, hs, Bool.true_and, bne_iff_ne]; omega
  have hu : f32Units b ≤ 2 ^ 23 - 1 :=
    ((f32Units_le_iff_mag_le b 0x007FFFFF#32).2 (by rw [(by decide : f32Mag 0x007FFFFF#32 = 0x007FFFFF)]; omega)).trans
      (by decide)
  have hm : encMag b = 0 := by rw [encMag_eq_units_div hr, Nat.div_eq_of_lt (by omega)]
  exact ⟨hr, hneg, by rw [encK, hneg, if_pos rfl, hm]; rfl⟩

/-- Settles O32: -0.0 is evaluated; a negative subnormal has the sign and the integer 0. -/
theorem encNegativeZeroAndSubnormals : Obligations.EncNegativeZeroAndSubnormals := by
  refine ⟨by decide, fun s => exec_enc_bits (by decide), fun s hlo hhi => ?_⟩
  obtain ⟨hr, hneg, hk⟩ := negSubnormal_facts hlo hhi
  refine ⟨hneg, exec_enc_bits ⟨hr, ?_⟩ rfl⟩
  rw [encR, hneg, if_pos rfl, encT_eq, hk]
  decide

end Sys2Proof.Proofs
end

section
/-! PROOF. The statements of spec/40_codec.md on the set of ENC's results (R63) and on DEC and ENC together (R64, R65), by the
integer that ENC's register value holds, as DEC reads it. -/

namespace Sys2Proof.Proofs

open Sys2Proof Sys2Proof.Machine Sys2Proof.Laws

/-! The integer that ENC's register value holds -/

theorem regK_encR_eq_encK {b : Word} (hr : encR b = encT b) (hlo : -2048 ≤ encK b) (hhi : encK b ≤ 2047) :
    regK (encR b) = encK b := by
  rw [hr, encT_eq, regK_u16 hlo hhi]

/-- ENC's register value is told from another with low bits 0 by the integer. -/
theorem encR_eq_iff_regK_eq (b : Word) {r : Half} (hlow : r.extractLsb' 0 4 = 0#4) :
    encR b = r ↔ regK (encR b) = regK r :=
  ⟨congrArg regK, fun h => by rw [← u16_regK_of_low (encR_low b), h, u16_regK_of_low hlow]⟩

section
variable {b : Word} {x : ℚ} (h : f32val b = some x) (hlo : -40 ≤ x) (hhi : x ≤ 128)
include h hlo hhi

theorem regK_encR_eq_floor (h0 : 0 ≤ x) (h128 : x < 128) : regK (encR b) = ⌊16 * x⌋ := by
  cases encCase h hlo hhi with
  | nonneg _ _ hk _ hhi hr => rw [regK_encR_eq_encK hr (by omega) hhi, hk]
  | negative => linarith
  | discontinuity => linarith
  | top => linarith

theorem regK_encR_eq_ceil (hx : x ≤ -1 / 16) : regK (encR b) = ⌈16 * x⌉ := by
  cases encCase h hlo hhi with
  | negative _ hk _ _ hr => rw [regK_encR_eq_encK hr (by omega) (by omega), hk]
  | nonneg => linarith
  | discontinuity => linarith
  | top => linarith

theorem encR_discontinuity (hgt : -1 / 16 < x) (hneg : x < 0) : encR b = 0x8000#16 := by
  cases encCase h hlo hhi with
  | discontinuity _ _ _ _ hr => exact hr
  | nonneg => linarith
  | negative => linarith
  | top => linarith

theorem encR_top (hx : x = 128) : encR b = 0x0000#16 := by
  cases encCase h hlo hhi with
  | top _ _ _ hr => exact hr
  | nonneg => linarith
  | negative => linarith
  | discontinuity => linarith

end

/-- On the grid ENC gives the integer times 16: it truncates nothing, and no grid point is in the gap below 0. -/
theorem encR_grid {b : Word} {k : ℤ} (h : f32val b = some ((k : ℚ) / 16)) (hlo : -640 ≤ k) (hhi : k ≤ 2047) :
    encInRange b = true ∧ encR b = u16 (k * 16) := by
  have hlo' : (-640 : ℚ) ≤ k := by exact_mod_cast hlo
  have hhi' : (k : ℚ) ≤ 2047 := by exact_mod_cast hhi
  have hx0 : (-40 : ℚ) ≤ k / 16 := by linarith
  have hx1 : (k : ℚ) / 16 ≤ 128 := by linarith
  have h16 : 16 * ((k : ℚ) / 16) = k := by ring
  have hreg : regK (encR b) = k := by
    rcases le_or_gt 0 k with h0 | h0
    · have h0' : (0 : ℚ) ≤ k := by exact_mod_cast h0
      rw [regK_encR_eq_floor h hx0 hx1 (by linarith) (by linarith), h16, Int.floor_intCast]
    · have h0' : (k : ℚ) ≤ -1 := by exact_mod_cast (by omega : k ≤ -1)
      rw [regK_encR_eq_ceil h hx0 hx1 (by linarith), h16, Int.ceil_intCast]
  exact ⟨(encInRange_iff_val h).2 ⟨hx0, hx1⟩, by rw [← hreg, u16_regK_of_low (encR_low b)]⟩

/-! The set of ENC's results (R63) -/

/-- ENC's results, by the integer: low bits 0, and an integer from -640 on or the least. -/
theorem isEncResult_iff_regK (r : Half) :
    IsEncResult r ↔ r.extractLsb' 0 4 = 0#4 ∧ (-640 ≤ regK r ∨ regK r = -2048) := by
  constructor
  · rintro (⟨k, hlo, hhi, rfl⟩ | rfl)
    · rw [mul_comm, regK_u16 (by omega) hhi]
      exact ⟨low_u16 k, .inl hlo⟩
    · decide
  · rintro ⟨hlow, hk | hk⟩ <;> have hr := u16_regK_of_low hlow
    · exact .inl ⟨regK r, hk, (regK_range r).2, by rw [mul_comm, hr]⟩
    · rw [hk] at hr
      exact .inr (hr.symm.trans (by decide))

/-- ENC's results as ranges of patterns. -/
theorem isEncResult_iff_ranges (r : Half) :
    IsEncResult r ↔ r &&& 0x000F#16 = 0#16 ∧ (r ≤ 0x7FF0#16 ∨ 0xD800#16 ≤ r ∨ r = 0x8000#16) := by
  rw [isEncResult_iff_regK, and_low4_eq_zero_iff, and_congr_right_iff]
  intro hlow
  have hN := toNat_u16 (regK r)
  rw [u16_regK_of_low hlow] at hN
  obtain ⟨hlo, hhi⟩ := regK_range r
  rw [BitVec.le_def, BitVec.le_def, ← BitVec.toNat_inj]
  simp only [BitVec.toNat_ofNat]
  omega

/-- Reading the integer back tells the results u16(16 k) apart, and 0x8000 from all of them. -/
theorem ncard_isEncResult : { r | IsEncResult r }.ncard = 2689 := by
  have hset : { r | IsEncResult r } = insert 0x8000#16 ((fun k : ℤ => u16 (16 * k)) '' Set.Icc (-640) 2047) := by
    ext r
    simp [IsEncResult, or_comm, eq_comm, and_assoc]
  have hreg : ∀ k ∈ Set.Icc (-640 : ℤ) 2047, regK (u16 (16 * k)) = k := fun k ⟨hlo, hhi⟩ => by
    rw [mul_comm, regK_u16 (by omega) hhi]
  have hinj : Set.InjOn (fun k : ℤ => u16 (16 * k)) (Set.Icc (-640) 2047) :=
    Set.LeftInvOn.injOn (f₁' := regK) hreg
  have hnot : 0x8000#16 ∉ (fun k : ℤ => u16 (16 * k)) '' Set.Icc (-640) 2047 := by
    rintro ⟨k, hk, hr⟩
    have hk' := (hreg k hk).symm.trans (congrArg regK hr)
    rw [(by decide : regK 0x8000#16 = -2048)] at hk'
    have := hk.1
    omega
  rw [hset, Set.ncard_insert_of_notMem hnot, hinj.ncard_image, ← Finset.coe_Icc, Set.ncard_coe_finset, Int.card_Icc]
  rfl

theorem isEncResult_encR {b : Word} (hr : encInRange b = true) : IsEncResult (encR b) := by
  obtain ⟨x, h, hlo, hhi⟩ := (encInRange_iff_exists b).1 hr
  have ht : u16 (16 * encK b) = encT b := by rw [mul_comm, encT_eq]
  cases encCase h hlo hhi with
  | nonneg _ _ _ hk0 hk1 hr => exact .inl ⟨encK b, by omega, hk1, by rw [hr, ht]⟩
  | negative _ _ hk0 hk1 hr => exact .inl ⟨encK b, hk0, by omega, by rw [hr, ht]⟩
  | discontinuity _ _ _ _ hr => exact .inr hr
  | top _ _ _ hr => exact .inl ⟨0, by decide, by decide, hr⟩

/-- Every ENC result is that of some pattern: of a grid point, or of the pattern of -1/32 for 0x8000. -/
theorem exists_encR_eq {r : Half} (h : IsEncResult r) : ∃ b : Word, encInRange b = true ∧ encR b = r := by
  rcases h with ⟨k, hlo, hhi, rfl⟩ | rfl
  · rw [mul_comm]
    exact ⟨f32OfK k, encR_grid (f32val_f32OfK (by omega)) hlo hhi⟩
  · exact ⟨0xBD000000#32, by decide⟩

section
variable {b : Word} {x : ℚ} (h : f32val b = some x) (hlo : -40 ≤ x) (hhi : x ≤ 128)
include h hlo hhi

/-- Where ENC's result 0x0000 comes from. -/
theorem encR_eq_zero_iff : encR b = 0x0000#16 ↔ (0 ≤ x ∧ x < 1 / 16) ∨ x = 128 := by
  have hzero : encR b = 0x0000#16 ↔ regK (encR b) = 0 := encR_eq_iff_regK_eq b (by decide)
  cases encCase h hlo hhi with
  | nonneg h0 h128 hk hk0 hk1 hr =>
    rw [hzero, regK_encR_eq_encK hr (by omega) hk1, hk, Int.floor_eq_zero_iff, Set.mem_Ico, or_iff_left h128.ne]
    exact and_congr ⟨fun _ => h0, fun _ => by linarith⟩ ⟨fun _ => by linarith, fun _ => by linarith⟩
  | negative hx _ hk0 hk1 hr =>
    refine iff_of_false ?_ (by rintro (⟨h0, -⟩ | rfl) <;> linarith)
    rw [hzero, regK_encR_eq_encK hr (by omega) (by omega)]
    omega
  | discontinuity _ hneg _ _ hr =>
    exact iff_of_false (by rw [hr]; decide) (by rintro (⟨h0, -⟩ | rfl) <;> linarith)
  | top hx _ _ hr => exact iff_of_true hr (.inr hx)

/-- Where ENC's result 0x8000 comes from. -/
theorem encR_eq_signBit_iff : encR b = 0x8000#16 ↔ -1 / 16 < x ∧ x < 0 := by
  have hsign : encR b = 0x8000#16 ↔ regK (encR b) = -2048 := encR_eq_iff_regK_eq b (by decide)
  cases encCase h hlo hhi with
  | nonneg h0 _ _ hk0 hk1 hr =>
    refine iff_of_false ?_ (by rintro ⟨-, hneg⟩; linarith)
    rw [hsign, regK_encR_eq_encK hr (by omega) hk1]
    omega
  | negative hx _ hk0 hk1 hr =>
    refine iff_of_false ?_ (by rintro ⟨hgt, -⟩; linarith)
    rw [hsign, regK_encR_eq_encK hr (by omega) (by omega)]
    omega
  | discontinuity hgt hneg _ _ hr => exact iff_of_true hr ⟨hgt, hneg⟩
  | top hx _ _ hr => exact iff_of_false (by rw [hr]; decide) (by rintro ⟨-, hneg⟩; linarith)

end

/-- Settles O34: a result is u16(16 k) or 0x8000, and each of these is the result of a pattern. -/
theorem encResultSet : Obligations.EncResultSet := by
  refine ⟨fun r => ⟨?_, fun hres => ?_⟩, isEncResult_iff_ranges, ncard_isEncResult,
    fun hres => absurd ((isEncResult_iff_ranges _).1 hres) (by decide), fun s x h hlo hhi =>
      ⟨_, exec_enc_val h hlo hhi, rfl, encR_eq_zero_iff h hlo hhi, encR_eq_signBit_iff h hlo hhi⟩⟩
  · rintro ⟨s, o, ho, hok, rfl⟩
    obtain ⟨hr, rfl⟩ := exec_enc_ok ho hok
    exact isEncResult_encR hr
  · obtain ⟨b, hr, rfl⟩ := exists_encR_eq hres
    exact ⟨State.reset.presenting { State.reset.inp with fin := b }, _, exec_enc_inRange hr, rfl, rfl⟩

/-! The round trip (R64) -/

theorem joinBytes_highByte_lowByte (r : Half) : joinBytes (highByte r) (lowByte r) = r :=
  BitVec.extractLsb'_append_extractLsb' (w := 8) (len := 8) (x := r)

/-- SPLIT of the register value `r`, on any state that presents it. -/
theorem exec_split_reg {s : State} {r : Half} (h : s.inp.rin = r) :
    exec .split s = .next (s.observing ⟨0b00#2, 0#32, 0#16, highByte r, lowByte r⟩) := by
  rw [exec_split, splitOut_eq, h]

/-- DEC of the two bytes of `r` drives the pattern of the integer that `r` holds. -/
theorem exec_dec_split {s : State} {r : Half} (hp : s.inp.present = true) (h0 : s.inp.bin0 = highByte r)
    (h1 : s.inp.bin1 = lowByte r) : exec .dec s = .next (s.observing ⟨0b00#2, f32OfK (regK r), 0#16, 0#8, 0#8⟩) :=
  exec_dec_bytes (by rw [joinBytes_highByte_lowByte]) hp h0 h1

/-- Settles O35: the chain drives the pattern of the integer that ENC's register value holds. -/
theorem roundTrip : Obligations.RoundTrip := by
  intro s x h hlo hhi
  have hval := f32val_f32OfK_regK (encR s.inp.fin)
  refine ⟨_, _, _, exec_enc_val h hlo hhi, fun t => exec_split_reg, fun u => exec_dec_split, rfl, fun h0 h128 => ?_,
    fun hz => ?_, fun hx => ?_, fun hgt hneg => ?_, fun hx => ?_, fun k hk0 hk1 hx => ?_⟩
  · have hfl := Int.floor_le (16 * x)
    have hlt := Int.lt_floor_add_one (16 * x)
    exact ⟨by rw [hval, regK_encR_eq_floor h hlo hhi h0 h128], by linarith, by linarith⟩
  · change f32OfK (regK (encR s.inp.fin)) = _
    rw [hz]
    decide
  · have hle := Int.le_ceil (16 * x)
    have hlt := Int.ceil_lt_add_one (16 * x)
    exact ⟨by rw [hval, regK_encR_eq_ceil h hlo hhi hx], by linarith, by linarith⟩
  · rw [hval, encR_discontinuity h hlo hhi hgt hneg, (by decide : regK 0x8000#16 = -2048)]
    norm_num
  · change f32OfK (regK (encR s.inp.fin)) = _
    rw [encR_top h hlo hhi hx]
    decide
  · rw [mul_one_div] at hx
    obtain ⟨-, hr⟩ := encR_grid (hx ▸ h) hk0 hk1
    rw [hval, hr, regK_u16 (by omega) hk1, hx]

/-! Re-encoding (R65) -/

/-- A register value's temperature is in ENC's range exactly when its integer is from -640 on. -/
theorem regK_div_sixteen_in_range_iff (r : Half) :
    (-40 ≤ (regK r : ℚ) / 16 ∧ (regK r : ℚ) / 16 ≤ 128) ↔ -640 ≤ regK r ∧ regK r ≤ 2047 := by
  obtain ⟨-, hhi⟩ := regK_range r
  have hhi' : (regK r : ℚ) ≤ 2047 := by exact_mod_cast hhi
  rw [and_iff_left hhi, and_iff_left (by linarith), le_div_iff₀ (by norm_num)]
  norm_num
  norm_cast

/-- ENC takes DEC's result back to the register value with its low bits cleared. -/
theorem encR_f32OfK_regK {r : Half} (hlo : -640 ≤ regK r) :
    encInRange (f32OfK (regK r)) = true ∧ encR (f32OfK (regK r)) = r &&& 0xFFF0#16 := by
  rw [← u16_regK]
  exact encR_grid (f32val_f32OfK_regK r) hlo (regK_range r).2

theorem encInRange_f32OfK_regK_iff (r : Half) :
    encInRange (f32OfK (regK r)) = true ↔ -640 ≤ regK r ∧ regK r ≤ 2047 :=
  (encInRange_iff_val (f32val_f32OfK_regK r)).trans (regK_div_sixteen_in_range_iff r)

/-- Settles O36: DEC's result is a grid point, which ENC takes back to the integer times 16, or it is below the range. -/
theorem reEncode : Obligations.ReEncode := by
  refine ⟨fun s hp => ?_, fun s => exec_enc_bits (by decide)⟩
  obtain ⟨hlo, hhi⟩ := regK_range (joinBytes s.inp.bin0 s.inp.bin1)
  have hrange := regK_div_sixteen_in_range_iff (joinBytes s.inp.bin0 s.inp.bin1)
  have henc := encInRange_f32OfK_regK_iff (joinBytes s.inp.bin0 s.inp.bin1)
  refine ⟨_, _, exec_dec_present hp, f32val_f32OfK_regK _, f32OfK_ne_negZero (by omega), hrange, fun h0 h1 t => ?_,
    fun hout => ⟨?_, fun t ht => exec_enc_outOfRange ?_⟩⟩
  · exact exec_enc_bits (encR_f32OfK_regK (hrange.1 ⟨h0, h1⟩).1)
  · rw [hrange] at hout
    change regK (joinBytes _ _) < _
    omega
  · rw [ht, ← Bool.not_eq_true, henc, ← hrange]
    exact hout

end Sys2Proof.Proofs
end

section
/-! PROOF. The statements of spec/41_byte_order.md (R66 to R69). JOIN's value and SPLIT's bytes are the two sides of one
bijection between pairs of bytes and register values. -/

namespace Sys2Proof.Proofs

open Sys2Proof Sys2Proof.Machine Sys2Proof.Laws

/-! The bytes of a joined value, and the bytes of a value as numbers -/

@[simp] theorem highByte_joinBytes (b0 b1 : Byte) : highByte (joinBytes b0 b1) = b0 :=
  BitVec.extractLsb'_append_eq_left

@[simp] theorem lowByte_joinBytes (b0 b1 : Byte) : lowByte (joinBytes b0 b1) = b1 :=
  BitVec.extractLsb'_append_eq_right

theorem highByte_toNat (r : Half) : (highByte r).toNat = r.toNat / 256 := by
  have := r.isLt
  rw [highByte, BitVec.extractLsb'_toNat, Nat.shiftRight_eq_div_pow]
  omega

theorem lowByte_toNat (r : Half) : (lowByte r).toNat = r.toNat % 256 := by
  rw [lowByte, BitVec.extractLsb'_toNat, Nat.shiftRight_zero]

/-! The statements -/

/-- JOIN of the bytes `b0` and `b1`, on any state that presents them. -/
theorem exec_join_bytes {s : State} {b0 b1 : Byte} (h0 : s.inp.bin0 = b0) (h1 : s.inp.bin1 = b1) :
    exec .join s = .next (s.observing ⟨0b00#2, 0#32, joinBytes b0 b1, 0#8, 0#8⟩) := by
  rw [exec_join, joinOut_eq, h0, h1]

/-- Settles O40: DEC's k is the integer that the joined bytes hold, with `present` or without. -/
theorem decAssemblesAsJoin : Obligations.DecAssemblesAsJoin := fun s =>
  ⟨_, exec_join_bytes rfl rfl, decK_eq_regK s.inp.bin0 s.inp.bin1, fun hp => ⟨_, exec_dec_present hp, rfl⟩⟩

/-- Settles O37: the joined value has the two bytes as its high and low bytes; the three byte pairs are evaluated. -/
theorem joinResult : Obligations.JoinResult := by
  refine ⟨rfl, fun s => ⟨_, exec_join_bytes rfl rfl, highByte_joinBytes _ _, lowByte_joinBytes _ _, joinBytes_toNat _ _,
    fun h0 h1 => ?_, fun h0 h1 => ?_, fun h0 h1 => ?_⟩⟩ <;> rw [h0, h1] <;> decide

/-- Settles O38: the bytes are quotient and remainder of the value by 256; the two values are evaluated. -/
theorem splitResult : Obligations.SplitResult := by
  refine ⟨rfl, fun s => ⟨_, _, exec_split_reg rfl, highByte_toNat _, lowByte_toNat _, fun h => ?_, fun h => ?_⟩⟩ <;>
    rw [h] <;> decide

/-- Settles O39: joining the two bytes of a value gives the value, and the bytes of a joined value are those joined. -/
theorem joinSplitInverse : Obligations.JoinSplitInverse :=
  ⟨fun s => ⟨_, _, exec_split_reg rfl, fun _ => exec_join_bytes, joinBytes_highByte_lowByte s.inp.rin⟩,
    fun _ => ⟨_, _, exec_join_bytes rfl rfl, fun _ => exec_split_reg, highByte_joinBytes _ _, lowByte_joinBytes _ _⟩⟩

end Sys2Proof.Proofs
end

section
/-! PROOF. The statements of spec/60_exceptions.md (R73 to R79). What an operation lets the host observe is legal, and legality
gives the sentinel of an error and the range of a DEC result. -/

namespace Sys2Proof.Proofs

open Sys2Proof Sys2Proof.Machine Sys2Proof.Laws

/-- Whatever an operation lets the host observe is legal: it is `Codec` of inputs that select the operation. -/
theorem legal_of_exec {i : Instr} {s : State} {o : Out} (h : exec i s = .next (s.observing o)) : o.Legal := by
  rw [exec_eq_observing, Host.Outcome.next.injEq, observing_inj] at h
  exact h ▸ codec_legal _

/-- Settles O41: `present` decides DEC's status and the range check ENC's; JOIN and SPLIT have one status. -/
theorem whenEachStatus : Obligations.WhenEachStatus := by
  intro s
  refine ⟨⟨_, exec_dec s, fun hp => ?_, fun hp => ?_⟩, ⟨_, exec_enc s, fun hr => ?_, fun hr => ?_⟩,
    ⟨_, exec_join s, rfl⟩, ⟨_, exec_split s, rfl⟩⟩
  · rw [decOut_present _ hp]
  · rw [decOut_absent _ hp]
  · rw [encOut_inRange ((encInRange_iff_exists _).2 hr)]
  · rw [← encInRange_iff_exists, Bool.not_eq_true] at hr
    rw [encOut_outOfRange hr]

/-- Settles O42: the outputs on the ports are legal, and a step lets the host observe these. -/
theorem neverBusError : Obligations.NeverBusError := by
  intro s t
  obtain ⟨hbus, -⟩ := out_legal s
  refine ⟨hbus, fun h => ?_⟩
  rw [step_eq_observing_out, Host.Outcome.next.injEq] at h
  exact ⟨s.out, h ▸ observing_observed s _, hbus⟩

/-- Settles O43: legal outputs carry the sentinel that goes with the error. -/
theorem errorsDriveSentinels : Obligations.ErrorsDriveSentinels := by
  refine ⟨fun s o h hst => ?_, fun s o h hst => ?_⟩
  · obtain ⟨-, hinvalid, -⟩ := legal_of_exec h
    exact (hinvalid hst).1
  · obtain ⟨-, -, hrange, -⟩ := legal_of_exec h
    obtain ⟨-, hrout, -⟩ := hrange hst
    exact hrout

theorem f32val_floatSentinelDefault : f32val Config.floatSentinelDefault = some 255 := by
  have hs : f32Sign Config.floatSentinelDefault = false := by decide
  have hM : f32Signif Config.floatSentinelDefault = 255 * 2 ^ 16 := by decide
  have hP : f32Scale Config.floatSentinelDefault = -16 := by decide
  rw [f32val_of_exp_ne (by decide), hs, hM, hP]
  norm_num

/-- A DEC result is at most 127.9375, so the default sentinel, 255, is none. -/
theorem not_isDecResult_floatSentinelDefault : ¬IsDecResult Config.floatSentinelDefault := by
  rintro ⟨-, k, -, hk, hval⟩
  rw [f32val_floatSentinelDefault, Option.some.injEq, res] at hval
  have hk' : (k : ℚ) ≤ 2047 := by exact_mod_cast hk
  linarith

/-- Settles O44: 0x00FF has low bits set, which no result of ENC has; the default is no DEC result; JOIN drives any value. -/
theorem sentinelsAgainstResults : Obligations.SentinelsAgainstResults := by
  refine ⟨fun s o h hok hrout => ?_, fun s o h hok hfout => ?_, f32val_floatSentinelDefault,
    fun s h0 h1 => ⟨_, exec_join_bytes h0 h1, rfl, by decide⟩⟩
  · obtain ⟨hlow, -⟩ := encLowBitsAreZero s o h hok
    rw [hrout] at hlow
    exact absurd hlow (by decide)
  · obtain ⟨-, -, -, hdec, -⟩ := legal_of_exec h
    exact not_isDecResult_floatSentinelDefault (hfout ▸ hdec hok)

/-- Settles O45: a step adds a record to the host's observation and nothing else, and outputs do not depend on it (O5). -/
theorem errorLeavesNothingBehind : Obligations.ErrorLeavesNothingBehind := by
  intro s i _
  obtain ⟨hout, o, hs, ht⟩ := outputsDependOnInputsAlone (s.presenting i) ((s.observing s.out).presenting i) rfl
  exact ⟨_, o, step_eq_observing_out s, hout.symm, hs, ht⟩

end Sys2Proof.Proofs
end

section
/-! PROOF. The statements of spec/70_reset_and_hazards.md: the invariant at reset, and the observation of a host program. Every
operand of a well-formed line has a value, so the line presents some ports; that is kept along the lines (R91). -/

namespace Sys2Proof.Proofs

open Sys2Proof Sys2Proof.Machine Sys2Proof.Laws

/-- Settles O47: the outputs of any inputs are legal, and nothing has been observed. -/
theorem resetOutputsAreLegal : Obligations.ResetOutputsAreLegal :=
  ⟨out_legal State.reset, List.forall_mem_nil Out.Legal⟩

/-! A line presents ports when every line it refers to has been run (R49) -/

section
variable {tr : Trace}

theorem exists_evalByte {a : ByteArg} (h : ∀ l ∈ a.refs, ∃ o, tr.lookup l = some o) : ∃ b, evalByte tr a = some b := by
  cases a with
  | lit b => exact ⟨b, rfl⟩
  | bout0 l =>
    obtain ⟨o, ho⟩ := h l (List.mem_singleton_self l)
    exact ⟨_, evalByte_bout0 ho⟩
  | bout1 l =>
    obtain ⟨o, ho⟩ := h l (List.mem_singleton_self l)
    exact ⟨_, evalByte_bout1 ho⟩

theorem exists_evalByte_both {a0 a1 : ByteArg} (h : ∀ l ∈ a0.refs ++ a1.refs, ∃ o, tr.lookup l = some o) :
    (∃ b, evalByte tr a0 = some b) ∧ ∃ b, evalByte tr a1 = some b := by
  obtain ⟨h0, h1⟩ := List.forall_mem_append.1 h
  exact ⟨exists_evalByte h0, exists_evalByte h1⟩

theorem exists_evalReg {a : RegArg} (h : ∀ l ∈ a.refs, ∃ o, tr.lookup l = some o) : ∃ r, evalReg tr a = some r := by
  cases a with
  | lit r => exact ⟨r, rfl⟩
  | rout l =>
    obtain ⟨o, ho⟩ := h l (List.mem_singleton_self l)
    exact ⟨_, evalReg_rout ho⟩

theorem exists_evalFloat {a : FloatArg} (h : ∀ l ∈ a.refs, ∃ o, tr.lookup l = some o) :
    ∃ f, evalFloat tr a = some f := by
  cases a with
  | bits b => exact ⟨b, rfl⟩
  | decimal d => exact ⟨_, rfl⟩
  | fout l =>
    obtain ⟨o, ho⟩ := h l (List.mem_singleton_self l)
    exact ⟨_, evalFloat_fout ho⟩

theorem exists_linePorts {form : LineForm} (h : ∀ l ∈ form.refs, ∃ o, tr.lookup l = some o) :
    ∃ i, linePorts tr form = some i := by
  cases form with
  | decAbsent => exact ⟨_, rfl⟩
  | dec a0 a1 =>
    obtain ⟨⟨_, h0⟩, _, h1⟩ := exists_evalByte_both h
    exact ⟨_, linePorts_dec h0 h1⟩
  | join a0 a1 =>
    obtain ⟨⟨_, h0⟩, _, h1⟩ := exists_evalByte_both h
    exact ⟨_, linePorts_join h0 h1⟩
  | enc a =>
    obtain ⟨f, hf⟩ := exists_evalFloat h
    exact ⟨_, linePorts_enc hf⟩
  | split a =>
    obtain ⟨r, hr⟩ := exists_evalReg h
    exact ⟨_, linePorts_split hr⟩

end

/-- Every line run so far has outputs in the trace. -/
theorem exists_lookup_zip {done : List Label} {outs : List Out} (hlen : done.length ≤ outs.length) {l : Label}
    (hl : l ∈ done) : ∃ o, (done.zip outs).lookup l = some o := by
  rw [← Option.ne_none_iff_exists', Ne, List.lookup_eq_none_iff]
  intro h
  rw [← List.map_fst_zip hlen, List.mem_map] at hl
  obtain ⟨x, hx, rfl⟩ := hl
  simpa using h x hx

/-! Lines run one after another (R91) -/

theorem linesWellFormed_cons_iff (earlier : List Label) (l : Line) (rest : List Line) :
    linesWellFormed earlier (l :: rest) = true ↔
      l.label ∉ earlier ∧ (∀ r ∈ l.form.refs, r ∈ earlier) ∧ linesWellFormed (l.label :: earlier) rest = true := by
  simp [linesWellFormed, and_assoc]

/-- `outs` are the outputs of the lines `p`, run after lines labelled `done` with outputs `prev`: one record a line, each
`Codec` of the ports that its line presents after those before it. -/
def OutputsOfLines (done : List Label) (prev : List Out) (p : List Line) (outs : List Out) : Prop :=
  outs.length = p.length ∧ ∀ (j : ℕ) (l : Line) (o : Out), p[j]? = some l → outs[j]? = some o →
    ∃ i, linePorts ((done ++ (p.take j).map Line.label).zip (prev ++ outs.take j)) l.form = some i ∧
      o = codec Config.floatSentinel i

theorem outputsOfLines_nil (done : List Label) (prev : List Out) : OutputsOfLines done prev [] [] :=
  ⟨rfl, fun _ _ _ h => by simp at h⟩

theorem outputsOfLines_cons {done : List Label} {prev : List Out} {l : Line} {i : In} {rest : List Line}
    {outs : List Out} (hi : linePorts (done.zip prev) l.form = some i)
    (h : OutputsOfLines (done ++ [l.label]) (prev ++ [codec Config.floatSentinel i]) rest outs) :
    OutputsOfLines done prev (l :: rest) (codec Config.floatSentinel i :: outs) := by
  obtain ⟨hlen, hrec⟩ := h
  refine ⟨congrArg (· + 1) hlen, fun j l' o hl ho => ?_⟩
  cases j with
  | zero =>
    obtain rfl : l = l' := Option.some.inj hl
    exact ⟨i, by simpa using hi, (Option.some.inj ho).symm⟩
  | succ j => simpa using hrec j l' o hl ho

/-- Well-formed lines complete, and what is observed of them is fixed by what was observed of the lines before. -/
theorem exists_outputsOfLines {p : List Line} {earlier done : List Label} {prev : List Out}
    (hwf : linesWellFormed earlier p = true) (hdone : earlier ⊆ done) (hlen : done.length = prev.length) :
    ∃ outs, OutputsOfLines done prev p outs ∧
      ∀ s : State, s.observed = prev → (runLines s done p).map State.observed = some (prev ++ outs) := by
  induction p generalizing earlier done prev with
  | nil =>
    refine ⟨[], outputsOfLines_nil done prev, fun s hs => ?_⟩
    rw [runLines, Option.map_some, hs, List.append_nil]
  | cons l rest ih =>
    obtain ⟨-, hrefs, hrest⟩ := (linesWellFormed_cons_iff earlier l rest).1 hwf
    obtain ⟨i, hi⟩ : ∃ i, linePorts (done.zip prev) l.form = some i :=
      exists_linePorts fun r hr => exists_lookup_zip hlen.le (hdone (hrefs r hr))
    obtain ⟨outs, houts, hrun⟩ := ih (done := done ++ [l.label]) (prev := prev ++ [codec Config.floatSentinel i]) hrest
      (List.cons_subset.2 ⟨by simp, List.subset_append_of_subset_left _ hdone⟩) (by simp [hlen])
    refine ⟨_, outputsOfLines_cons hi houts, fun s hs => ?_⟩
    subst hs
    rw [runLines_cons hi, hrun _ rfl, List.append_assoc, List.singleton_append]

/-- Settles O51: a program is its lines after no line, from an empty observation. -/
theorem hostProgramCompletes : Obligations.HostProgramCompletes := by
  intro p hp
  obtain ⟨outs, ⟨hlen, hrec⟩, hrun⟩ := exists_outputsOfLines (done := []) (prev := []) hp (List.Subset.refl _) rfl
  exact ⟨outs, hlen, fun s => hrun { s with observed := [] } rfl, hrec⟩

end Sys2Proof.Proofs
end
